-- ==== Sys2Proof/Word.lean ====
section
/-! DEFINITION. The widths of the KCB's values (spec 00_scope.md R8). -/

namespace Sys2Proof

/-- A byte of a cursor buffer, and a keystream byte. -/
abbrev Byte := BitVec 8

/-- A cipher word, a key word, a command word, and a register of the host bus (R8, R52). -/
abbrev Word := BitVec 32

/-- The width of `DIN` and `DOUT` (R8). -/
abbrev DWord := BitVec 64

/-- A byte address of the host bus (R50, R51). -/
abbrev BusAddr := BitVec 14

end Sys2Proof
end

