-- ==== Sys2Proof/Syntax.lean ====
section
/-! DEFINITION. The command set of the KCB: one constructor of `Instr` for each row of spec/opcode_table.json
(spec 30_encoding.md R71, R79). -/

namespace Sys2Proof

/-- A byte cursor, as `SEL` names it for OP 0x0 to 0x9 (R72). -/
inductive CursorId where
  | c0 | c1
deriving DecidableEq, Repr

/-- A cipher instance, as `SEL` names it for OP 0xA to 0xD (R72). -/
inductive CipherId where
  | k0 | k1
deriving DecidableEq, Repr

/-- The access width of `RD` and `WR`, in bits (R73). -/
inductive Width where
  | w8 | w16 | w32 | w64
deriving DecidableEq, Repr

/-- The seven offset encodings (R75). -/
inductive OffsetEncoding where
  | none | offset | negativeOffset | postNegativeOffset | preNegativeOffset | inverted | negative
deriving DecidableEq, Repr

/-- The four byte orders (R76). -/
inductive ByteOrder where
  | big | middle | inverseMiddle | little
deriving DecidableEq, Repr

/-- A command of the KCB. `n` is the bit count field `N`, as the word holds it (R77). -/
inductive Instr where
  | clr (c : CursorId)
  | setw (c : CursorId)
  | rd (c : CursorId) (w : Width) (signed : Bool) (enc : OffsetEncoding) (ord : ByteOrder)
  | wr (c : CursorId) (w : Width) (enc : OffsetEncoding) (ord : ByteOrder)
  | bwbegin (c : CursorId)
  | wbits (c : CursorId) (n : Nat)
  | bwend (c : CursorId)
  | brbegin (c : CursorId)
  | rbits (c : CursorId) (n : Nat)
  | brend (c : CursorId)
  | cseed (k : CipherId)
  | cnext (k : CipherId)
  | cdec (k : CipherId)
  | cenc (k : CipherId)
deriving DecidableEq, Repr

end Sys2Proof
end

