-- ==== Sys2Proof/WellFormed.lean ====
section
/-! DEFINITION. Which terms of `Instr` a command word can stand for. -/

namespace Sys2Proof

/-- `N` is a 6-bit field (spec 30_encoding.md R70, R77). The count itself may be one that `WBITS` and `RBITS`
refuse when they execute: 0 and 33 to 63 are well-formed words. -/
def bitCountFits (n : Nat) : Bool := n < 64

/-- The instruction's fields fit the command word. Every field but `N` holds one of its legal codes by its type. -/
def Instr.wellFormed : Instr → Bool
  | .wbits _ n => bitCountFits n
  | .rbits _ n => bitCountFits n
  | .clr _ | .setw _ | .rd _ _ _ _ _ | .wr _ _ _ _ | .bwbegin _ | .bwend _ | .brbegin _ | .brend _
  | .cseed _ | .cnext _ | .cdec _ | .cenc _ => true

end Sys2Proof
end

