-- ==== Sys2Proof/Decode.lean ====
section
/-! DEFINITION. The command word: its fields, the decoder and the encoder (spec 30_encoding.md R70 to R83). -/

namespace Sys2Proof

/-- The fields of the one command format (R70). -/
structure Fields where
  op  : BitVec 4
  sel : BitVec 1
  w   : BitVec 2
  s   : BitVec 1
  enc : BitVec 3
  ord : BitVec 2
  n   : BitVec 6
  res : BitVec 13
deriving DecidableEq, Repr

/-- The fields of a word, at the bit positions of R70's table. -/
def unpack (cw : Word) : Fields where
  op  := cw.extractLsb' 0 4
  sel := cw.extractLsb' 4 1
  w   := cw.extractLsb' 5 2
  s   := cw.extractLsb' 7 1
  enc := cw.extractLsb' 8 3
  ord := cw.extractLsb' 11 2
  n   := cw.extractLsb' 13 6
  res := cw.extractLsb' 19 13

/-- R70: `OP | SEL<<4 | W<<5 | S<<7 | ENC<<8 | ORD<<11 | N<<13`, with the reserved bits above. -/
def pack (f : Fields) : Word :=
  f.op.setWidth 32 ||| (f.sel.setWidth 32 <<< 4) ||| (f.w.setWidth 32 <<< 5) ||| (f.s.setWidth 32 <<< 7)
    ||| (f.enc.setWidth 32 <<< 8) ||| (f.ord.setWidth 32 <<< 11) ||| (f.n.setWidth 32 <<< 13)
    ||| (f.res.setWidth 32 <<< 19)

/-- R72, for the cursor operations. -/
def CursorId.sel : CursorId → BitVec 1
  | .c0 => 0#1
  | .c1 => 1#1

/-- R72, for the cursor operations. -/
def cursorOfSel (b : BitVec 1) : CursorId := if b = 0#1 then .c0 else .c1

/-- R72, for the cipher operations. -/
def CipherId.sel : CipherId → BitVec 1
  | .k0 => 0#1
  | .k1 => 1#1

/-- R72, for the cipher operations. -/
def cipherOfSel (b : BitVec 1) : CipherId := if b = 0#1 then .k0 else .k1

/-- R73: the code `W` of a width. -/
def Width.code : Width → BitVec 2
  | .w8 => 0#2
  | .w16 => 1#2
  | .w32 => 2#2
  | .w64 => 3#2

/-- R73. -/
def widthOfCode (b : BitVec 2) : Width :=
  if b = 0#2 then .w8 else if b = 1#2 then .w16 else if b = 2#2 then .w32 else .w64

/-- R74: `S` is 1 for a signed read. -/
def signCode (signed : Bool) : BitVec 1 := if signed then 1#1 else 0#1

/-- R75's table. -/
def OffsetEncoding.code : OffsetEncoding → BitVec 3
  | .none => 0#3
  | .offset => 1#3
  | .negativeOffset => 2#3
  | .postNegativeOffset => 3#3
  | .preNegativeOffset => 4#3
  | .inverted => 5#3
  | .negative => 6#3

/-- R75's table; code 7 is reserved (R82). -/
def encodingOfCode (b : BitVec 3) : Option OffsetEncoding :=
  if b = 0#3 then some .none
  else if b = 1#3 then some .offset
  else if b = 2#3 then some .negativeOffset
  else if b = 3#3 then some .postNegativeOffset
  else if b = 4#3 then some .preNegativeOffset
  else if b = 5#3 then some .inverted
  else if b = 6#3 then some .negative
  else Option.none

/-- R76's table. -/
def ByteOrder.code : ByteOrder → BitVec 2
  | .big => 0#2
  | .middle => 1#2
  | .inverseMiddle => 2#2
  | .little => 3#2

/-- R76's table, which leaves no code out (R82). -/
def orderOfCode (b : BitVec 2) : ByteOrder :=
  if b = 0#2 then .big else if b = 1#2 then .middle else if b = 2#2 then .inverseMiddle else .little

/-- The operations of R71. -/
inductive Op where
  | clr | setw | rd | wr | bwbegin | wbits | bwend | brbegin | rbits | brend | cseed | cnext | cdec | cenc
deriving DecidableEq, Repr

/-- R71's table. -/
def Op.code : Op → BitVec 4
  | .clr => 0x0#4
  | .setw => 0x1#4
  | .rd => 0x2#4
  | .wr => 0x3#4
  | .bwbegin => 0x4#4
  | .wbits => 0x5#4
  | .bwend => 0x6#4
  | .brbegin => 0x7#4
  | .rbits => 0x8#4
  | .brend => 0x9#4
  | .cseed => 0xA#4
  | .cnext => 0xB#4
  | .cdec => 0xC#4
  | .cenc => 0xD#4

/-- R71's table; 0xE and 0xF are reserved (R81). -/
def opOfCode (b : BitVec 4) : Option Op :=
  if b = 0x0#4 then some .clr
  else if b = 0x1#4 then some .setw
  else if b = 0x2#4 then some .rd
  else if b = 0x3#4 then some .wr
  else if b = 0x4#4 then some .bwbegin
  else if b = 0x5#4 then some .wbits
  else if b = 0x6#4 then some .bwend
  else if b = 0x7#4 then some .brbegin
  else if b = 0x8#4 then some .rbits
  else if b = 0x9#4 then some .brend
  else if b = 0xA#4 then some .cseed
  else if b = 0xB#4 then some .cnext
  else if b = 0xC#4 then some .cdec
  else if b = 0xD#4 then some .cenc
  else none

/-- Which of the fields `W`, `S`, `ENC`, `ORD` and `N` an operation uses: R79's table. `SEL` is used by every
operation. -/
structure Uses where
  w : Bool
  s : Bool
  enc : Bool
  ord : Bool
  n : Bool
deriving DecidableEq, Repr

/-- R79's table. -/
def Op.uses : Op → Uses
  | .rd => ⟨true, true, true, true, false⟩
  | .wr => ⟨true, false, true, true, false⟩
  | .wbits => ⟨false, false, false, false, true⟩
  | .rbits => ⟨false, false, false, false, true⟩
  | .clr | .setw | .bwbegin | .bwend | .brbegin | .brend | .cseed | .cnext | .cdec | .cenc =>
    ⟨false, false, false, false, false⟩

/-- R79: some field the operation does not use is not 0. -/
def unusedFieldSet (u : Uses) (f : Fields) : Bool :=
  (!u.w && f.w != 0#2) || (!u.s && f.s != 0#1) || (!u.enc && f.enc != 0#3)
    || (!u.ord && f.ord != 0#2) || (!u.n && f.n != 0#6)

/-- Why a word is illegal, in the order R80 checks. -/
inductive Illegal where
  /-- Bits 31:19 are not all 0 (R78). -/
  | reservedBits
  /-- OP is 0xE or 0xF (R81). -/
  | reservedOp
  /-- A field the operation does not use is not 0 (R79). -/
  | unusedField
  /-- `ENC = 7` in `RD` or `WR` (R82). -/
  | reservedEncoding
deriving DecidableEq, Repr

/-- The command that a legal operation and its fields make (R71, R79); `RD` and `WR` need an encoding (R82). -/
def instrOf (op : Op) (f : Fields) : Except Illegal Instr :=
  match op with
  | .clr => .ok (.clr (cursorOfSel f.sel))
  | .setw => .ok (.setw (cursorOfSel f.sel))
  | .rd =>
    match encodingOfCode f.enc with
    | some e => .ok (.rd (cursorOfSel f.sel) (widthOfCode f.w) (f.s == 1#1) e (orderOfCode f.ord))
    | none => .error .reservedEncoding
  | .wr =>
    match encodingOfCode f.enc with
    | some e => .ok (.wr (cursorOfSel f.sel) (widthOfCode f.w) e (orderOfCode f.ord))
    | none => .error .reservedEncoding
  | .bwbegin => .ok (.bwbegin (cursorOfSel f.sel))
  | .wbits => .ok (.wbits (cursorOfSel f.sel) f.n.toNat)
  | .bwend => .ok (.bwend (cursorOfSel f.sel))
  | .brbegin => .ok (.brbegin (cursorOfSel f.sel))
  | .rbits => .ok (.rbits (cursorOfSel f.sel) f.n.toNat)
  | .brend => .ok (.brend (cursorOfSel f.sel))
  | .cseed => .ok (.cseed (cipherOfSel f.sel))
  | .cnext => .ok (.cnext (cipherOfSel f.sel))
  | .cdec => .ok (.cdec (cipherOfSel f.sel))
  | .cenc => .ok (.cenc (cipherOfSel f.sel))

/-- R80's decoding, on the fields of a word. -/
def decodeFields (f : Fields) : Except Illegal Instr :=
  if f.res ≠ 0#13 then .error .reservedBits
  else
    match opOfCode f.op with
    | none => .error .reservedOp
    | some op => if unusedFieldSet op.uses f then .error .unusedField else instrOf op f

/-- R80: every 32-bit word is one command, or illegal. -/
def decode (cw : Word) : Except Illegal Instr := decodeFields (unpack cw)

/-- The instruction the decoder reads from the bits `w` of an opcode-table row. A command is one 32-bit word, given
to the KCB as a value and not as bytes in a memory (R67, R83). -/
def decodeTableWord (nbits w : Nat) : Option Instr :=
  match decode (BitVec.ofNat 32 (w % 2 ^ nbits)) with
  | .ok i => some i
  | .error _ => none

/-- The fields that stand for an operation on one instance, every other field 0 (R79). -/
def selFields (op : Op) (sel : BitVec 1) : Fields := ⟨op.code, sel, 0#2, 0#1, 0#3, 0#2, 0#6, 0#13⟩

/-- The fields of an instruction's command word (R70 to R79). -/
def fieldsOf : Instr → Fields
  | .clr c => selFields .clr c.sel
  | .setw c => selFields .setw c.sel
  | .rd c w signed enc ord => ⟨Op.rd.code, c.sel, w.code, signCode signed, enc.code, ord.code, 0#6, 0#13⟩
  | .wr c w enc ord => ⟨Op.wr.code, c.sel, w.code, 0#1, enc.code, ord.code, 0#6, 0#13⟩
  | .bwbegin c => selFields .bwbegin c.sel
  | .wbits c n => ⟨Op.wbits.code, c.sel, 0#2, 0#1, 0#3, 0#2, BitVec.ofNat 6 n, 0#13⟩
  | .bwend c => selFields .bwend c.sel
  | .brbegin c => selFields .brbegin c.sel
  | .rbits c n => ⟨Op.rbits.code, c.sel, 0#2, 0#1, 0#3, 0#2, BitVec.ofNat 6 n, 0#13⟩
  | .brend c => selFields .brend c.sel
  | .cseed k => selFields .cseed k.sel
  | .cnext k => selFields .cnext k.sel
  | .cdec k => selFields .cdec k.sel
  | .cenc k => selFields .cenc k.sel

/-- The command word of an instruction (R70). -/
def encode (i : Instr) : Word := pack (fieldsOf i)

end Sys2Proof
end

