-- ==== Sys2Proof/Config.lean ====
section
/-! DEFINITION. What is fixed when a KCB is built, and the values the spec leaves open. -/

namespace Sys2Proof

/-- The build parameters a rule depends on (spec 00_scope.md R7, 70_reset_and_hazards.md R245). `bufSize` is
`BUF_SIZE`, the byte capacity of each cursor buffer. State carries it, so that a statement about every state is
about every capacity; no step changes it. -/
structure Params where
  bufSize : Nat
deriving DecidableEq, Repr

/-- The range R7 gives `BUF_SIZE`: an integer in 8..4096. -/
def Params.legal (p : Params) : Bool := 8 ≤ p.bufSize && p.bufSize ≤ 4096

/-- R7's reference value. -/
def Params.reference : Params := ⟨4096⟩

/-- FREE VALUE. The byte that position `p` of a cursor's buffer holds after a reset and before anything writes it
(spec 10_state.md R43): unspecified, drawn once at the reset and then held. The first argument numbers the reset.
It has no body, so nothing can be proved of a drawn byte. -/
opaque Config.bufDraw : Nat → CursorId → Nat → BitVec 8

/-- FREE VALUE. What a host read of `DOUT`, a position register or a window returns while `BUSY = 1`
(spec 10_state.md R25, 20_memory.md R56, 93_implementation_defined.md U10): unspecified, drawn anew at each such
read, which the argument numbers. -/
opaque Config.busyRead : Nat → BitVec 32

end Sys2Proof
end

