-- ==== Sys2Proof/Machine/State.lean ====
section
/-! DEFINITION. The state of the KCB (spec 10_state.md), the host's pending actions on it, and why a step can stop. -/

namespace Sys2Proof.Machine

/-- The result of the last completed command (spec 60_exceptions.md R210). The codes 11..15 are never produced. -/
inductive ErrCode where
  | ok | insufficientData | cipherUninitialized | illegalOrder | illegalBitCount | modeViolation
  | bufferOverflow | illegalCommand | cipherReseed | illegalPosition | fatalLock
deriving DecidableEq, Repr

/-- A cursor's mode (R33). Its fourth code is never produced. -/
inductive Mode where
  | off | bitw | bitr
deriving DecidableEq, Repr

/-- The bytes something has written to a buffer since reset: (position, byte) pairs, positions strictly rising.
An unlisted position holds no written byte. -/
abbrev Memory := List Host.Cell

/-- 256 words of a cipher instance (R38). -/
abbrev WordArray := Vector Word 256

/-- One cursor instance (R35). -/
structure Cursor where
  buf : Memory
  rpos : BitVec 13
  wpos : BitVec 13
  bitpos : BitVec 16
  mode : Mode
deriving DecidableEq, Repr

/-- One cipher instance (R38). -/
structure Cipher where
  seeded : Bool
  mem : WordArray
  rsl : WordArray
  a : Word
  b : Word
  c : Word
  cnt : BitVec 9
deriving DecidableEq, Repr

/-- The width of a host access (spec 20_memory.md R51). -/
inductive BusSize where
  | byte | half | full
deriving DecidableEq, Repr

/-- The data of a host access: as many bits as it is wide (R51, R57). -/
inductive BusData where
  | b8 (v : BitVec 8)
  | b16 (v : BitVec 16)
  | b32 (v : BitVec 32)
deriving DecidableEq, Repr

/-- One host access (R51). A write is as wide as its data. -/
inductive BusAccess where
  | read (size : BusSize) (addr : BusAddr)
  | write (addr : BusAddr) (data : BusData)
deriving DecidableEq, Repr

/-- What the outside world does to the KCB next: through the host bus (R51) or the reset input (spec
70_reset_and_hazards.md R240). `issue w during` is the host's write of the word `w` to `CMD` together with the
accesses it makes before that command completes, while `BUSY = 1`. -/
inductive HostEvent where
  | access (a : BusAccess)
  | issue (w : Word) (during : List BusAccess)
  | rst
deriving DecidableEq, Repr

/-- The whole machine: the registers of R23 to R34, the two cursors of R35, the two ciphers of R38, and, last, the
model's own fields: the build parameter, the numbers of the next free values, and the host's side of the bus. -/
structure State where
  din : DWord
  dout : DWord
  key0 : Word
  key1 : Word
  key2 : Word
  key3 : Word
  errcmd : Word
  busy : Bool
  err : ErrCode
  fatal : Bool
  ovr : Bool
  c0 : Cursor
  c1 : Cursor
  k0 : Cipher
  k1 : Cipher
  params : Params
  resetCount : Nat
  busyReads : Nat
  host : List HostEvent
  answers : List BusData
deriving DecidableEq, Repr

/-- Why the machine stops with a fault. -/
inductive Fault where
  /-- Raised by `RD`, `RBITS` and `BWEND` when a position register points past the last byte of the buffer, where
  the spec has no byte (spec 20_memory.md R50). Safe: it happens only in a state that breaks R36's invariant, which
  reset establishes and every step keeps, so no run from reset meets it. -/
  | noSuchByte
deriving DecidableEq, Repr

/-- Why the machine refuses an instruction. -/
inductive Refusal where
  /-- Raised by `exec` for an instruction that has no meaning yet; no arm of it does so in this model. Safe: the
  machine stops where the hardware goes on. -/
  | notModelled (mnemonic : String)
deriving DecidableEq, Repr

/-- A cursor after reset (R42, R43). -/
def Cursor.reset : Cursor := ⟨[], 0#13, 0#13, 0#16, .off⟩

/-- A cipher after reset: unseeded (R42). Its arrays and registers are unspecified and unobservable (R44); the zeros
are the model's. DESIGN CHOICE (notes/assumptions/3.md), unsafe. -/
def Cipher.reset : Cipher :=
  ⟨false, Vector.replicate 256 0#32, Vector.replicate 256 0#32, 0#32, 0#32, 0#32, 0#9⟩

/-- The machine right after reset (R42), at the reference capacity (R7), with nothing pending on the host bus. -/
def State.reset : State where
  din := 0#64
  dout := 0#64
  key0 := 0#32
  key1 := 0#32
  key2 := 0#32
  key3 := 0#32
  errcmd := 0#32
  busy := false
  err := .ok
  fatal := false
  ovr := false
  c0 := Cursor.reset
  c1 := Cursor.reset
  k0 := Cipher.reset
  k1 := Cipher.reset
  params := Params.reference
  resetCount := 0
  busyReads := 0
  host := []
  answers := []

end Sys2Proof.Machine
end

