-- ==== Sys2Proof/Machine/Operands.lean ====
section
/-! DEFINITION. The cursor datapath on values: the offset encodings, the byte orders, the target byte, assembly and
disassembly, extension, and the fields of a bit cursor (spec 40_cursor_bytes.md R101 to R113, 41_cursor_bits.md
R140, R141). No state is read here. -/

namespace Sys2Proof.Machine

/-- R73: the access width in bytes, `1 << W`. -/
def Width.bytes : Width → Nat
  | .w8 => 1
  | .w16 => 2
  | .w32 => 4
  | .w64 => 8

/-- `T(enc, x)` of R101, modulo 256. -/
def offsetTransform (enc : OffsetEncoding) (x : Byte) : Byte :=
  match enc with
  | .none => x
  | .offset => x - 128#8
  | .negativeOffset => 128#8 - x
  | .postNegativeOffset => 128#8 - x
  | .preNegativeOffset => 128#8 - x
  | .inverted => 0#8 - x
  | .negative => ~~~x

/-- `perm(ord, w)` of R103 to R106: which value byte stands at each stream position. MIDDLE and INVERSE_MIDDLE have
no permutation at 1 and 2 bytes (R107), and the list is empty there. -/
def streamOrder (ord : ByteOrder) (w : Width) : List Nat :=
  match ord with
  | .big =>
    match w with
    | .w8 => [0]
    | .w16 => [1, 0]
    | .w32 => [3, 2, 1, 0]
    | .w64 => [7, 6, 5, 4, 3, 2, 1, 0]
  | .little =>
    match w with
    | .w8 => [0]
    | .w16 => [0, 1]
    | .w32 => [0, 1, 2, 3]
    | .w64 => [0, 1, 2, 3, 4, 5, 6, 7]
  | .middle =>
    match w with
    | .w8 => []
    | .w16 => []
    | .w32 => [1, 0, 3, 2]
    | .w64 => [1, 0, 3, 2, 5, 4, 7, 6]
  | .inverseMiddle =>
    match w with
    | .w8 => []
    | .w16 => []
    | .w32 => [2, 3, 0, 1]
    | .w64 => [6, 7, 4, 5, 2, 3, 0, 1]

/-- R107 and R122: MIDDLE or INVERSE_MIDDLE with a width of 1 or 2 bytes. -/
def orderIllegal (ord : ByteOrder) (w : Width) : Bool :=
  (ord = .middle || ord = .inverseMiddle) && Width.bytes w < 4

/-- `tgt(enc, ord, w)` of R108: the one value byte the transform hits. -/
def targetByte (enc : OffsetEncoding) (ord : ByteOrder) (w : Width) : Nat :=
  if enc = .preNegativeOffset then (streamOrder ord w).getLastD 0 else 0

/-- The value bytes `V[0]`, ..., `V[n-1]` of a value, least significant first (spec 00_scope.md R12). -/
def splitBytes (n : Nat) (v : DWord) : List Byte := (List.range n).map fun j => v.extractLsb' (8 * j) 8

/-- `{V[w-1], ..., V[0]}` (spec 00_scope.md R14), zero-extended to 64 bits. -/
def joinBytes : List Byte → DWord
  | [] => 0#64
  | b :: bs => (joinBytes bs <<< 8) ||| b.setWidth 64

/-- The stream that holds the value bytes `vs` in the order `P`: position `i` holds `V[P[i]]` (R103). -/
def toStream (P : List Nat) (vs : List Byte) : List Byte := P.map fun j => vs.getD j 0#8

/-- The value bytes a stream holds: `V[P[i]] <- stream[i]` for each `i` (R110). -/
def fromStream (P : List Nat) (bs : List Byte) : List Byte :=
  (P.zip bs).foldl (fun vs x => vs.set x.1 x.2) (List.replicate P.length 0#8)

/-- The value `Assemble` returns for the `w` bytes of a stream (R110), zero-extended to 64 bits. -/
def assemble (w : Width) (enc : OffsetEncoding) (ord : ByteOrder) (bs : List Byte) : DWord :=
  joinBytes ((fromStream (streamOrder ord w) bs).modify (targetByte enc ord w) (offsetTransform enc))

/-- The `w` bytes `Disassemble` writes for a value, in stream order (R111). Only the low `8w` bits of `v` count
(R113). -/
def disassemble (w : Width) (enc : OffsetEncoding) (ord : ByteOrder) (v : DWord) : List Byte :=
  toStream (streamOrder ord w) ((splitBytes (Width.bytes w) v).modify (targetByte enc ord w) (offsetTransform enc))

/-- `Extend(s, w, u)` of R112: the low `8w` bits of `u`, widened to 64 bits. -/
def extend (signed : Bool) (w : Width) (u : DWord) : DWord :=
  if signed then (u.setWidth (8 * Width.bytes w)).signExtend 64 else (u.setWidth (8 * Width.bytes w)).setWidth 64

/-- `ceil8(n) = (n + 7) >> 3` (spec 00_scope.md R13). -/
def ceil8 (n : Nat) : Nat := (n + 7) >>> 3

/-- R142: the bit counts that `WBITS` and `RBITS` do not accept. -/
def bitCountIllegal (n : Nat) : Bool := n < 1 || 32 < n

/-- The mask table `mask[i] = (1 << i) - 1` of R141, for `i` in 0..31. -/
def bitMask (i : Nat) : Word := (1#32 <<< i) - 1#32

/-- R140: the bit of a byte at bit position `p`, whose number in the byte is `7 - (p & 7)`. -/
def bitOfByte (x : Byte) (p : Nat) : Bool := x.getLsbD (7 - p % 8)

/-- R140: the byte with the bit at bit position `p` set to `b` and its other 7 bits unchanged. -/
def setBitOfByte (x : Byte) (p : Nat) (b : Bool) : Byte :=
  (x &&& ~~~(1#8 <<< (7 - p % 8))) ||| ((BitVec.ofBool b).setWidth 8 <<< (7 - p % 8))

end Sys2Proof.Machine
end

