-- ==== Sys2Proof/Machine/Ops.lean ====
section
/-! DEFINITION. The operations the commands share: choosing an instance, the bytes and bits of a cursor buffer, and
how a command completes or raises an error (spec 20_memory.md R50; 41_cursor_bits.md R140, R151; 60_exceptions.md
R213 to R219). -/

namespace Sys2Proof.Machine

/-! ### Instances -/

/-- The cursor a command selects (R72). -/
def State.cursor (s : State) (c : CursorId) : Cursor :=
  match c with
  | .c0 => s.c0
  | .c1 => s.c1

/-- Replaces one cursor; the other is untouched (spec 40_cursor_bytes.md R124). -/
def State.setCursor (s : State) (c : CursorId) (x : Cursor) : State :=
  { s with
    c0 := match c with | .c0 => x | .c1 => s.c0
    c1 := match c with | .c0 => s.c1 | .c1 => x }

/-- The cipher a command selects (R72). -/
def State.cipher (s : State) (k : CipherId) : Cipher :=
  match k with
  | .k0 => s.k0
  | .k1 => s.k1

/-- Replaces one cipher; the other is untouched (spec 42_cipher.md R180). -/
def State.setCipher (s : State) (k : CipherId) (x : Cipher) : State :=
  { s with
    k0 := match k with | .k0 => x | .k1 => s.k0
    k1 := match k with | .k0 => s.k1 | .k1 => x }

/-! ### Buffer bytes -/

/-- The canonical form of a buffer's contents: positions strictly rising. An unlisted position holds no written
byte, so no entry can equal what it reads as. -/
abbrev Memory.wf (m : Memory) : Prop := m.Pairwise fun x y => x.1 < y.1

/-- The byte last written at a position, if any was. -/
def Memory.read? : Memory → Nat → Option Byte
  | [], _ => none
  | (b, x) :: m, a => if b = a then some x else Memory.read? m a

/-- Writes one byte, keeping the canonical form. -/
def Memory.write : Memory → Nat → Byte → Memory
  | [], a, v => [(a, v)]
  | (b, x) :: m, a, v =>
    if a < b then (a, v) :: (b, x) :: m
    else if a = b then (a, v) :: m
    else (b, x) :: Memory.write m a v

/-- `MemRead(c, p, 1)` (spec 00_scope.md R15): the byte last written there, or the reset draw (spec 10_state.md
R43). -/
def State.byteAt (s : State) (c : CursorId) (p : Nat) : Byte :=
  ((s.cursor c).buf.read? p).getD (Config.bufDraw s.resetCount c p)

/-- `MemWrite(c, p, 1, v)` (spec 00_scope.md R15). -/
def State.putByte (s : State) (c : CursorId) (p : Nat) (v : Byte) : State :=
  s.setCursor c { s.cursor c with buf := (s.cursor c).buf.write p v }

/-- The `n` bytes from position `p` on, in buffer order. -/
def State.readBytes (s : State) (c : CursorId) (p n : Nat) : List Byte := (List.range n).map fun i => s.byteAt c (p + i)

/-- Writes the bytes in buffer order from position `p` on. -/
def State.writeBytes (s : State) (c : CursorId) (p : Nat) : List Byte → State
  | [] => s
  | b :: bs => (s.putByte c p b).writeBytes c (p + 1) bs

/-! ### Buffer bits -/

/-- `BitRead(c, p)` (R140). -/
def State.bitAt (s : State) (c : CursorId) (p : Nat) : Bool := bitOfByte (s.byteAt c (p >>> 3)) p

/-- `BitWrite(c, p, b)` (R140). -/
def State.putBit (s : State) (c : CursorId) (p : Nat) (b : Bool) : State :=
  s.putByte c (p >>> 3) (setBitOfByte (s.byteAt c (p >>> 3)) p b)

/-- Writes the low `n` bits of `v` at bit position `p`, most significant first: the loop of R145. -/
def State.writeBits (s : State) (c : CursorId) (p : Nat) : Nat → DWord → State
  | 0, _ => s
  | n + 1, v => (s.putBit c p (v.getLsbD n)).writeBits c (p + 1) n v

/-- Reads an `n`-bit field at bit position `p`, most significant bit first, zero-extended: the loop of R148. -/
def State.readBits (s : State) (c : CursorId) (p : Nat) : Nat → DWord
  | 0 => 0#64
  | n + 1 => ((BitVec.ofBool (s.bitAt c p)).setWidth 64 <<< n) ||| s.readBits c (p + 1) n

/-- R151's byte-wise formulation: `off` free bits are left in byte `bp`, and `n` bits of `v` are still to be
written. `fuel` bounds the rounds of its loop; each round after the first fills a byte, so `n` rounds suffice. -/
def State.writeBitsFrom (s : State) (c : CursorId) (v : Word) : (fuel bp off n : Nat) → State
  | 0, _, _, _ => s
  | fuel + 1, bp, off, n =>
    let old := (s.byteAt c bp).setWidth 32
    if off < n then
      State.writeBitsFrom
        (s.putByte c bp (((old &&& ~~~bitMask off) ||| ((v >>> (n - off)) &&& bitMask off)).setWidth 8))
        c v fuel (bp + 1) 8 (n - off)
    else if n = off then
      s.putByte c bp (((old &&& ~~~bitMask off) ||| (v &&& bitMask off)).setWidth 8)
    else
      s.putByte c bp
        (((old &&& ~~~(bitMask n <<< (off - n))) ||| ((v &&& bitMask n) <<< (off - n))).setWidth 8)

/-- `WriteBitsBytewise(c, pos, n, v)` of R151. -/
def State.writeBitsBytewise (s : State) (c : CursorId) (pos n : Nat) (v : Word) : State :=
  s.writeBitsFrom c v n (pos >>> 3) (8 - pos % 8) n

/-! ### Completing a command and raising an error -/

/-- `raise E` (R213) in a command whose word is `w`. `FatalLock` leaves `ERRCMD` alone (R217), and
`CipherUninitialized` locks the block (R216). -/
def State.raise (s : State) (e : ErrCode) (w : Word) : State :=
  { s with
    err := e
    errcmd := if e = .fatalLock then s.errcmd else w
    fatal := s.fatal || e = .cipherUninitialized
    busy := false }

/-- A command that raises no error completes (R219, R28). -/
def State.complete (s : State) : State := { s with err := .ok, busy := false }

/-- The first error of a list of checks that applies (R218). -/
def firstError : List (Bool × ErrCode) → Option ErrCode
  | [] => none
  | (applies, e) :: rest => if applies then some e else firstError rest

/-- One command: the FatalLock check (R217), then the command's own checks in their order (R218), then its effect.
All checks come before all writes (R214). -/
def command (i : Instr) (checks : List (Bool × ErrCode)) (s : State)
    (effect : Host.Outcome State Fault Refusal) : Host.Outcome State Fault Refusal :=
  if s.fatal then .next (s.raise .fatalLock (encode i))
  else
    match firstError checks with
    | some e => .next (s.raise e (encode i))
    | none => effect

/-- An effect that touches the buffer bytes up to position `last`, exclusive. The buffer has no byte at or past
`BUF_SIZE` (R50). -/
def withinBuffer (s : State) (last : Nat) (s' : State) : Host.Outcome State Fault Refusal :=
  if last ≤ s.params.bufSize then .next s'.complete else .fault .noSuchByte

/-- A word that fails decoding (R80, R217, R218). -/
def illegalWord (w : Word) (s : State) : Host.Outcome State Fault Refusal :=
  if s.fatal then .next (s.raise .fatalLock w) else .next (s.raise .illegalCommand w)

/-- R122 and R150: the check that the selected cursor is in the mode the command needs. -/
def State.modeCheck (s : State) (c : CursorId) (needed : Mode) : Bool × ErrCode :=
  ((s.cursor c).mode ≠ needed, .modeViolation)

end Sys2Proof.Machine
end

