-- ==== Sys2Proof/Machine/CursorBits.lean ====
section
/-! DEFINITION. The bit cursor family: BWBEGIN, WBITS, BWEND, BRBEGIN, RBITS, BREND (spec 41_cursor_bits.md). -/

namespace Sys2Proof.Machine

/-- `BWBEGIN c` (R144). -/
def execBwbegin (c : CursorId) (s : State) : Host.Outcome State Fault Refusal :=
  command (.bwbegin c) [s.modeCheck c .off] s
    (.next (s.setCursor c
      { s.cursor c with bitpos := BitVec.ofNat 16 (8 * (s.cursor c).wpos.toNat), mode := .bitw }).complete)

/-- `WBITS c, N` (R145), of the low `N` bits of `DIN`. -/
def execWbits (c : CursorId) (n : Nat) (s : State) : Host.Outcome State Fault Refusal :=
  let q := (s.cursor c).bitpos.toNat
  let s' := s.writeBits c q n s.din
  command (.wbits c n)
    [s.modeCheck c .bitw,
     (bitCountIllegal n, .illegalBitCount),
     (8 * s.params.bufSize < q + n, .bufferOverflow)] s
    (.next (s'.setCursor c { s'.cursor c with bitpos := BitVec.ofNat 16 (q + n) }).complete)

/-- The bits from `q` to the end of its byte, which `BWEND` pads with 0: none when `q` is a multiple of 8 (R146). -/
def padLength (q : Nat) : Nat := (8 - q % 8) % 8

/-- `BWEND c` (R146). It touches a byte only where there are bits to pad. -/
def execBwend (c : CursorId) (s : State) : Host.Outcome State Fault Refusal :=
  let q := (s.cursor c).bitpos.toNat
  let s' := s.writeBits c q (padLength q) 0#64
  command (.bwend c) [s.modeCheck c .bitw] s
    (withinBuffer s (if padLength q = 0 then 0 else ceil8 q)
      (s'.setCursor c { s'.cursor c with wpos := BitVec.ofNat 13 (ceil8 q), mode := .off }))

/-- `BRBEGIN c` (R147). -/
def execBrbegin (c : CursorId) (s : State) : Host.Outcome State Fault Refusal :=
  command (.brbegin c) [s.modeCheck c .off] s
    (.next (s.setCursor c
      { s.cursor c with bitpos := BitVec.ofNat 16 (8 * (s.cursor c).rpos.toNat), mode := .bitr }).complete)

/-- `RBITS c, N` (R148). -/
def execRbits (c : CursorId) (n : Nat) (s : State) : Host.Outcome State Fault Refusal :=
  let q := (s.cursor c).bitpos.toNat
  command (.rbits c n)
    [s.modeCheck c .bitr,
     (bitCountIllegal n, .illegalBitCount),
     (8 * (s.cursor c).wpos.toNat < q + n, .insufficientData)] s
    (withinBuffer s (ceil8 (q + n))
      { s.setCursor c { s.cursor c with bitpos := BitVec.ofNat 16 (q + n) } with dout := s.readBits c q n })

/-- `BREND c` (R149). -/
def execBrend (c : CursorId) (s : State) : Host.Outcome State Fault Refusal :=
  command (.brend c) [s.modeCheck c .bitr] s
    (.next (s.setCursor c
      { s.cursor c with rpos := BitVec.ofNat 13 (ceil8 (s.cursor c).bitpos.toNat), mode := .off }).complete)

end Sys2Proof.Machine
end

