-- ==== Sys2Proof/Machine/CursorBytes.lean ====
section
/-! DEFINITION. The byte cursor family: CLR, SETW, RD, WR (spec 40_cursor_bytes.md). -/

namespace Sys2Proof.Machine

/-- `CLR c` (R120). The buffer keeps its bytes; every mode allows it. -/
def execClr (c : CursorId) (s : State) : Host.Outcome State Fault Refusal :=
  command (.clr c) [] s
    (.next (s.setCursor c { s.cursor c with rpos := 0#13, wpos := 0#13, bitpos := 0#16, mode := .off }).complete)

/-- `SETW c` (R121), with `n = DIN` as an unsigned 64-bit number. -/
def execSetw (c : CursorId) (s : State) : Host.Outcome State Fault Refusal :=
  command (.setw c)
    [s.modeCheck c .off,
     (s.din.toNat < (s.cursor c).rpos.toNat || s.params.bufSize < s.din.toNat, .illegalPosition)] s
    (.next (s.setCursor c { s.cursor c with wpos := s.din.setWidth 13 }).complete)

/-- `RD.<u|s><bits>.<ENC>.<ORD> c` (R123). -/
def execRd (c : CursorId) (w : Width) (signed : Bool) (enc : OffsetEncoding) (ord : ByteOrder) (s : State) :
    Host.Outcome State Fault Refusal :=
  let r := (s.cursor c).rpos.toNat
  let n := Width.bytes w
  command (.rd c w signed enc ord)
    [s.modeCheck c .off,
     (orderIllegal ord w, .illegalOrder),
     ((s.cursor c).wpos.toNat < r + n, .insufficientData)] s
    (withinBuffer s (r + n)
      { s.setCursor c { s.cursor c with rpos := BitVec.ofNat 13 (r + n) } with
        dout := extend signed w (assemble w enc ord (s.readBytes c r n)) })

/-- `WR.<bits>.<ENC>.<ORD> c` (R125), of the low `8w` bits of `DIN` (R113). -/
def execWr (c : CursorId) (w : Width) (enc : OffsetEncoding) (ord : ByteOrder) (s : State) :
    Host.Outcome State Fault Refusal :=
  let p := (s.cursor c).wpos.toNat
  let n := Width.bytes w
  let s' := s.writeBytes c p (disassemble w enc ord s.din)
  command (.wr c w enc ord)
    [s.modeCheck c .off,
     (orderIllegal ord w, .illegalOrder),
     (s.params.bufSize < p + n, .bufferOverflow)] s
    (.next (s'.setCursor c { s'.cursor c with wpos := BitVec.ofNat 13 (p + n) }).complete)

end Sys2Proof.Machine
end

