-- ==== Sys2Proof/Machine/Keystream.lean ====
section
/-! DEFINITION. The keystream cipher family: the ISAAC generator, CSEED, CNEXT, CDEC, CENC (spec 42_cipher.md). -/

namespace Sys2Proof.Machine

/-! ### The generator (R171 to R174) -/

/-- A word of an array; an index is taken modulo 256 (spec 00_scope.md R16). -/
def WordArray.get (m : WordArray) (i : BitVec 8) : Word := m[i.toNat]'i.isLt

/-- Writes one word of an array. -/
def WordArray.put (m : WordArray) (i : BitVec 8) (v : Word) : WordArray := m.set i.toNat v i.isLt

/-- The eight working words of R172. -/
structure Mix where
  a : Word
  b : Word
  c : Word
  d : Word
  e : Word
  f : Word
  g : Word
  h : Word
deriving DecidableEq, Repr

/-- R172: the 24 assignments, in order, eight rows of three. -/
def mix (m : Mix) : Mix :=
  let a := m.a ^^^ (m.b <<< 11); let d := m.d + a; let b := m.b + m.c
  let b := b ^^^ (m.c >>> 2); let e := m.e + b; let c := m.c + d
  let c := c ^^^ (d <<< 8); let f := m.f + c; let d := d + e
  let d := d ^^^ (e >>> 16); let g := m.g + d; let e := e + f
  let e := e ^^^ (f <<< 10); let h := m.h + e; let f := f + g
  let f := f ^^^ (g >>> 4); let a := a + f; let g := g + h
  let g := g ^^^ (h <<< 8); let b := b + g; let h := h + a
  let h := h ^^^ (a >>> 9); let c := c + h; let a := a + b
  ⟨a, b, c, d, e, f, g, h⟩

/-- R172's golden-ratio constant. -/
def golden : Word := 0x9E3779B9#32

/-- R173: every working word at `GOLDEN`, mixed four times. -/
def mixStart : Mix := mix (mix (mix (mix ⟨golden, golden, golden, golden, golden, golden, golden, golden⟩)))

/-- R173: adds the eight words from index `i` on to the working words. -/
def Mix.addBlock (m : Mix) (src : WordArray) (i : BitVec 8) : Mix :=
  ⟨m.a + WordArray.get src i, m.b + WordArray.get src (i + 1), m.c + WordArray.get src (i + 2),
   m.d + WordArray.get src (i + 3), m.e + WordArray.get src (i + 4), m.f + WordArray.get src (i + 5),
   m.g + WordArray.get src (i + 6), m.h + WordArray.get src (i + 7)⟩

/-- R173: `MEM[i..i+7] <- a, b, c, d, e, f, g, h`. -/
def Mix.storeBlock (m : Mix) (dst : WordArray) (i : BitVec 8) : WordArray :=
  let dst := WordArray.put (WordArray.put dst i m.a) (i + 1) m.b
  let dst := WordArray.put (WordArray.put dst (i + 2) m.c) (i + 3) m.d
  let dst := WordArray.put (WordArray.put dst (i + 4) m.e) (i + 5) m.f
  WordArray.put (WordArray.put dst (i + 6) m.g) (i + 7) m.h

/-- R173: the block starts 0, 8, 16, ..., 248. -/
def blockStarts : List (BitVec 8) := (List.range 32).map fun j => BitVec.ofNat 8 (8 * j)

/-- R173's pass 1, over the seed in `rsl`, from working words `m`, into `dst`. -/
def seedPass (rsl : WordArray) (m : Mix) (dst : WordArray) : Mix × WordArray :=
  blockStarts.foldl (fun x i => let m := mix (x.1.addBlock rsl i); (m, m.storeBlock x.2 i)) (m, dst)

/-- R173's pass 2, over `MEM` itself. -/
def memPass (m : Mix) (mem : WordArray) : Mix × WordArray :=
  blockStarts.foldl (fun x i => let m := mix (x.1.addBlock x.2 i); (m, m.storeBlock x.2 i)) (m, mem)

/-- R174's change of `A` by `i mod 4`, before it adds a word of `MEM`. -/
def isaacShift (i : BitVec 8) (a : Word) : Word :=
  if i.setWidth 2 = 0#2 then a ^^^ (a <<< 13)
  else if i.setWidth 2 = 1#2 then a ^^^ (a >>> 6)
  else if i.setWidth 2 = 2#2 then a ^^^ (a <<< 2)
  else a ^^^ (a >>> 16)

/-- One round of R174's loop, at index `i`. Its second read of `MEM` sees the write to `MEM[i]`. -/
def isaacRound (k : Cipher) (i : BitVec 8) : Cipher :=
  let x := WordArray.get k.mem i
  let a := isaacShift i k.a
  let a := WordArray.get k.mem (i + 128) + a
  let y := WordArray.get k.mem (x.extractLsb' 2 8) + a + k.b
  let mem := WordArray.put k.mem i y
  let b := WordArray.get mem (y.extractLsb' 10 8) + x
  { k with mem := mem, rsl := WordArray.put k.rsl i b, a := a, b := b }

/-- R174: the indices 0 to 255, in order. -/
def allIndices : List (BitVec 8) := (List.range 256).map (BitVec.ofNat 8)

/-- `Isaac(k)` of R174: one block of 256 result words. -/
def isaacBlock (k : Cipher) : Cipher := allIndices.foldl isaacRound { k with c := k.c + 1, b := k.b + (k.c + 1) }

/-- `Init(k)` of R173, from the seed held in `RSL`. -/
def cipherInit (k : Cipher) : Cipher :=
  let pass1 := seedPass k.rsl mixStart k.mem
  let pass2 := memPass pass1.1 pass1.2
  { isaacBlock { k with mem := pass2.2 } with cnt := 256#9 }

/-! ### Seeding and consuming (R175 to R181) -/

/-- `RSL` as `CSEED` fills it (R175): the four key words, and zeros. -/
def seedWords (key0 key1 key2 key3 : Word) : WordArray :=
  WordArray.put (WordArray.put (WordArray.put (WordArray.put (Vector.replicate 256 0#32) 0 key0) 1 key1) 2 key2) 3 key3

/-- A cipher instance after `CSEED` (R175). -/
def Cipher.seed (k : Cipher) (key0 key1 key2 key3 : Word) : Cipher :=
  { cipherInit { k with rsl := seedWords key0 key1 key2 key3, a := 0#32, b := 0#32, c := 0#32 } with seeded := true }

/-- The state change of `NextByte(k)` (R181): one word of the block is consumed, after a new block is generated if
none is left. -/
def Cipher.advance (k : Cipher) : Cipher :=
  if k.cnt = 0#9 then { isaacBlock k with cnt := 255#9 } else { k with cnt := k.cnt - 1#9 }

/-- The byte `NextByte(k)` returns (R178, R181): the low 8 bits of the word just consumed. -/
def Cipher.nextByte (k : Cipher) : Byte :=
  (WordArray.get k.advance.rsl (k.advance.cnt.setWidth 8)).setWidth 8

/-! ### Commands -/

/-- `CSEED k` (R175). -/
def execCseed (k : CipherId) (s : State) : Host.Outcome State Fault Refusal :=
  command (.cseed k) [((s.cipher k).seeded, .cipherReseed)] s
    (.next (s.setCipher k ((s.cipher k).seed s.key0 s.key1 s.key2 s.key3)).complete)

/-- The shared shape of the consuming commands: instance `k` advances once (R181), and `DOUT` takes a byte,
zero-extended (R187). -/
def consume (i : Instr) (k : CipherId) (s : State) (result : Byte) : Host.Outcome State Fault Refusal :=
  command i [(!(s.cipher k).seeded, .cipherUninitialized)] s
    (.next { s.setCipher k (s.cipher k).advance with dout := result.setWidth 64 }.complete)

/-- `CNEXT k` (R182). -/
def execCnext (k : CipherId) (s : State) : Host.Outcome State Fault Refusal :=
  consume (.cnext k) k s (s.cipher k).nextByte

/-- `CDEC k` (R183). -/
def execCdec (k : CipherId) (s : State) : Host.Outcome State Fault Refusal :=
  consume (.cdec k) k s (s.din.setWidth 8 - (s.cipher k).nextByte)

/-- `CENC k` (R184). -/
def execCenc (k : CipherId) (s : State) : Host.Outcome State Fault Refusal :=
  consume (.cenc k) k s (s.din.setWidth 8 + (s.cipher k).nextByte)

end Sys2Proof.Machine
end

