-- ==== Sys2Proof/Machine/Dispatch.lean ====
section
/-! DEFINITION. The meaning of each command, one arm for each constructor of `Instr`. -/

namespace Sys2Proof.Machine

def exec (i : Instr) (s : State) : Host.Outcome State Fault Refusal :=
  match i with
  | .clr c => Sys2Proof.Machine.execClr c s
  | .setw c => Sys2Proof.Machine.execSetw c s
  | .rd c w signed enc ord => Sys2Proof.Machine.execRd c w signed enc ord s
  | .wr c w enc ord => Sys2Proof.Machine.execWr c w enc ord s
  | .bwbegin c => Sys2Proof.Machine.execBwbegin c s
  | .wbits c n => Sys2Proof.Machine.execWbits c n s
  | .bwend c => Sys2Proof.Machine.execBwend c s
  | .brbegin c => Sys2Proof.Machine.execBrbegin c s
  | .rbits c n => Sys2Proof.Machine.execRbits c n s
  | .brend c => Sys2Proof.Machine.execBrend c s
  | .cseed k => Sys2Proof.Machine.execCseed k s
  | .cnext k => Sys2Proof.Machine.execCnext k s
  | .cdec k => Sys2Proof.Machine.execCdec k s
  | .cenc k => Sys2Proof.Machine.execCenc k s

end Sys2Proof.Machine
end

