-- ==== Sys2Proof/Machine/Flags.lean ====
section
/-! DEFINITION. What a command reports: the error codes, the STATUS register and the error output (spec
60_exceptions.md R210, R221; 10_state.md R27). The KCB has no condition codes (R41). -/

namespace Sys2Proof.Machine

/-- R210's table. -/
def ErrCode.code : ErrCode → BitVec 4
  | .ok => 0#4
  | .insufficientData => 1#4
  | .cipherUninitialized => 2#4
  | .illegalOrder => 3#4
  | .illegalBitCount => 4#4
  | .modeViolation => 5#4
  | .bufferOverflow => 6#4
  | .illegalCommand => 7#4
  | .cipherReseed => 8#4
  | .illegalPosition => 9#4
  | .fatalLock => 10#4

/-- R33's encoding. -/
def Mode.code : Mode → BitVec 2
  | .off => 0#2
  | .bitw => 1#2
  | .bitr => 2#2

/-- One bit at a place in a 32-bit register. -/
def flagBit (b : Bool) (place : Nat) : Word := (BitVec.ofBool b).setWidth 32 <<< place

/-- `STATUS` as the host reads it: R27's table. The reserved bits 3:1 and 31:16 read 0. -/
def State.statusWord (s : State) : Word :=
  flagBit s.busy 0 ||| (s.err.code.setWidth 32 <<< 4) ||| flagBit s.fatal 8 ||| flagBit s.ovr 9
    ||| flagBit s.k0.seeded 10 ||| flagBit s.k1.seeded 11
    ||| (s.c0.mode.code.setWidth 32 <<< 12) ||| (s.c1.mode.code.setWidth 32 <<< 14)

/-- `err_o = STATUS.FATAL | (STATUS.ERR != 0)`, the level output of R221. -/
def State.errOut (s : State) : Bool := s.fatal || s.err.code != 0#4

end Sys2Proof.Machine
end

