-- ==== Sys2Proof/Machine/HostBus.lean ====
section
/-! DEFINITION. The host bus: what each address is, and what a host read or write of it does when it issues no
command (spec 20_memory.md R50 to R57; 10_state.md R23 to R34). -/

namespace Sys2Proof.Machine

/-- The bytes an access is wide. -/
def BusSize.bytes : BusSize → Nat
  | .byte => 1
  | .half => 2
  | .full => 4

/-- The width of a write. -/
def BusData.size : BusData → BusSize
  | .b8 _ => .byte
  | .b16 _ => .half
  | .b32 _ => .full

/-- The bits an access of a size carries of a value, from bit 0 up (R57). -/
def busData (size : BusSize) (v : Word) : BusData :=
  match size with
  | .byte => .b8 (v.setWidth 8)
  | .half => .b16 (v.setWidth 16)
  | .full => .b32 v

/-- The value of an access's data lines, zero-extended. -/
def BusData.word : BusData → Word
  | .b8 v => v.setWidth 32
  | .b16 v => v.setWidth 32
  | .b32 v => v

/-- What a host access reaches. -/
inductive BusTarget where
  | cmd | status | errcmd | dinLo | dinHi | doutLo | doutHi | key0 | key1 | key2 | key3
  | rpos (c : CursorId)
  | wpos (c : CursorId)
  | bitpos (c : CursorId)
  /-- Byte `p` of a cursor's buffer, and the bytes above it that the access covers (R55). -/
  | window (c : CursorId) (p : Nat)
  /-- R53. -/
  | reserved
  /-- A sub-word or misaligned register access, or a misaligned window access (R54, R55). -/
  | bad
deriving DecidableEq, Repr

/-- R52's register map: the offsets that are not reserved. -/
def registerMap : List (Nat × BusTarget) :=
  [(0x000, .cmd), (0x004, .status), (0x008, .errcmd),
   (0x010, .dinLo), (0x014, .dinHi), (0x018, .doutLo), (0x01C, .doutHi),
   (0x020, .key0), (0x024, .key1), (0x028, .key2), (0x02C, .key3),
   (0x040, .rpos .c0), (0x044, .wpos .c0), (0x048, .bitpos .c0),
   (0x050, .rpos .c1), (0x054, .wpos .c1), (0x058, .bitpos .c1)]

/-- The register at an offset; every other offset is reserved (R52, R53). -/
def registerAt (a : Nat) : BusTarget := (registerMap.lookup a).getD .reserved

/-- A window access at offset `p` of a window (R55). -/
def windowAt (P : Params) (size : BusSize) (c : CursorId) (p : Nat) : BusTarget :=
  if p % BusSize.bytes size ≠ 0 then .bad else if p < P.bufSize then .window c p else .reserved

/-- The host address map (R50, R52 to R55). -/
def busTarget (P : Params) (size : BusSize) (addr : BusAddr) : BusTarget :=
  let a := addr.toNat
  if a < 0x1000 then (if size = .full && a % 4 = 0 then registerAt a else .bad)
  else if a < 0x2000 then windowAt P size .c0 (a - 0x1000)
  else if a < 0x3000 then windowAt P size .c1 (a - 0x2000)
  else .reserved

/-- A byte of a window: a buffer byte, or 0 at a reserved offset (R55, R53). -/
def State.windowByte (s : State) (c : CursorId) (p : Nat) : Byte := if p < s.params.bufSize then s.byteAt c p else 0#8

/-- The value a host read returns while `BUSY = 0` (R52 to R57), and while `BUSY = 1` where it is specified. -/
def State.busValue (s : State) (size : BusSize) : BusTarget → Word
  | .cmd => 0#32
  | .status => s.statusWord
  | .errcmd => s.errcmd
  | .dinLo => s.din.extractLsb' 0 32
  | .dinHi => s.din.extractLsb' 32 32
  | .doutLo => s.dout.extractLsb' 0 32
  | .doutHi => s.dout.extractLsb' 32 32
  | .key0 => s.key0
  | .key1 => s.key1
  | .key2 => s.key2
  | .key3 => s.key3
  | .rpos c => (s.cursor c).rpos.setWidth 32
  | .wpos c => (s.cursor c).wpos.setWidth 32
  | .bitpos c => (s.cursor c).bitpos.setWidth 32
  | .window c p => (joinBytes ((List.range (BusSize.bytes size)).map fun j => s.windowByte c (p + j))).setWidth 32
  | .reserved => 0#32
  | .bad => 0#32

/-- What a read returns an unspecified value of while `BUSY = 1` (R25, R56, spec 70_reset_and_hazards.md R250). -/
def unspecifiedWhileBusy : BusTarget → Bool
  | .doutLo | .doutHi | .rpos _ | .wpos _ | .bitpos _ | .window _ _ => true
  | .cmd | .status | .errcmd | .dinLo | .dinHi | .key0 | .key1 | .key2 | .key3 | .reserved | .bad => false

/-- A host read. It changes nothing of the KCB (R62); the model notes its answer. -/
def State.busRead (s : State) (size : BusSize) (addr : BusAddr) : State :=
  let t := busTarget s.params size addr
  if s.busy && unspecifiedWhileBusy t then
    { s with answers := busData size (Config.busyRead s.busyReads) :: s.answers, busyReads := s.busyReads + 1 }
  else { s with answers := busData size (s.busValue size t) :: s.answers }

/-- The writes that are dropped, and set `OVR`, while `BUSY = 1` (R23, R24, R26, R55). -/
def droppedWhileBusy : BusTarget → Bool
  | .cmd | .dinLo | .dinHi | .key0 | .key1 | .key2 | .key3 | .window _ _ => true
  | .status | .errcmd | .doutLo | .doutHi | .rpos _ | .wpos _ | .bitpos _ | .reserved | .bad => false

/-- The bytes of a window write that fall inside the buffer are stored; a reserved offset ignores its byte (R55,
R53). -/
def State.windowWrite (s : State) (c : CursorId) (p : Nat) (bs : List Byte) : State :=
  s.writeBytes c p (bs.take (s.params.bufSize - p))

/-- The effect of a host write that is not dropped. A write to `CMD` that is not dropped issues a command, which is
`issue`'s and not this function's: here it changes nothing. Read-only registers, reserved offsets and bad accesses
ignore a write (R52 to R54). -/
def State.busStore (s : State) (data : BusData) : BusTarget → State
  | .status => if data.word.getLsbD 9 then { s with ovr := false } else s
  | .dinLo => { s with din := s.din.extractLsb' 32 32 ++ data.word }
  | .dinHi => { s with din := data.word ++ s.din.extractLsb' 0 32 }
  | .key0 => { s with key0 := data.word }
  | .key1 => { s with key1 := data.word }
  | .key2 => { s with key2 := data.word }
  | .key3 => { s with key3 := data.word }
  | .window c p => s.windowWrite c p (splitBytes (BusSize.bytes data.size) (data.word.setWidth 64))
  | .cmd | .errcmd | .doutLo | .doutHi | .rpos _ | .wpos _ | .bitpos _ | .reserved | .bad => s

/-- A host write (R52 to R57; R31 while `BUSY = 1`). -/
def State.busWrite (s : State) (addr : BusAddr) (data : BusData) : State :=
  let t := busTarget s.params data.size addr
  if s.busy && droppedWhileBusy t then { s with ovr := true } else s.busStore data t

/-- A host access that issues no command. -/
def State.busAccess (s : State) : BusAccess → State
  | .read size addr => s.busRead size addr
  | .write addr data => s.busWrite addr data

/-- The accesses the host makes one after another. -/
def State.busAccesses (s : State) (l : List BusAccess) : State := l.foldl State.busAccess s

/-- The command word of an access that writes to `CMD` (R23); no other access runs a command (R62). -/
def BusAccess.command? : BusAccess → Option Word
  | .write addr (.b32 w) => if addr = 0#14 then some w else none
  | .write _ (.b8 _) | .write _ (.b16 _) | .read _ _ => none

end Sys2Proof.Machine
end

