-- ==== Sys2Proof/Machine/Issue.lean ====
section
/-! DEFINITION. What each thing the outside world does makes of the machine: issuing a command, another bus access,
reset (spec 10_state.md R23, R28; 70_reset_and_hazards.md R240). -/

namespace Sys2Proof.Machine

/-- The command engine executes one word, to completion (R20, R80). -/
def runWord (w : Word) (s : State) : Host.Outcome State Fault Refusal :=
  match decode w with
  | .ok i => exec i s
  | .error _ => illegalWord w s

/-- The host writes `w` to `CMD`, and makes the accesses `during` before `BUSY` returns to 0 (R23, R28, R31). The
command sees what the host wrote before it (R253) and completes in the same step (R28, R260). -/
def issue (w : Word) (during : List BusAccess) (s : State) : Host.Outcome State Fault Refusal :=
  if s.busy then .next (State.busAccesses { s with ovr := true } during)
  else runWord w (State.busAccesses { s with busy := true } during)

/-- The machine after the reset input has been asserted and released (R240, R42): the values of `State.reset`, with
the buffers holding a new draw (R43). What was built in, and the host's side of the bus, stay. -/
def State.afterReset (s : State) : State :=
  { State.reset with
    params := s.params
    resetCount := s.resetCount + 1
    busyReads := s.busyReads
    host := s.host
    answers := s.answers }

/-- One event from outside. -/
def hostEvent (e : HostEvent) (s : State) : Host.Outcome State Fault Refusal :=
  match e with
  | .access a =>
    match a.command? with
    | some w => issue w [] s
    | none => .next (s.busAccess a)
  | .issue w during => issue w during s
  | .rst => .next s.afterReset

/-- One step: the next thing the outside world does. With nothing pending the KCB is idle and holds its state
(spec 60_exceptions.md R231). -/
def hostStep (s : State) : Host.Outcome State Fault Refusal :=
  match s.host with
  | [] => .next s
  | e :: rest => hostEvent e { s with host := rest }

/-- The host's next action is to issue the word `w`, and the KCB can take it (R23). -/
def State.withNextCommand (s : State) (w : Word) : State := { s with host := .issue w [] :: s.host, busy := false }

end Sys2Proof.Machine
end

