-- ==== Sys2Proof/Machine/Step.lean ====
section
/-! DEFINITION. One step of the machine. -/

namespace Sys2Proof.Machine

/-- One step of the machine (spec 10_state.md R20): see `hostStep`. -/
def step (s : State) : Host.Outcome State Fault Refusal := hostStep s

/-- The very next step issues the command whose bits are `w`. The KCB fetches no instructions: a command is the
word the host writes to `CMD` (R21, R67), so the word stands at the head of the host's pending actions. -/
def State.withFetchWord (s : State) (nbits w : Nat) : State :=
  s.withNextCommand (BitVec.ofNat 32 (w % 2 ^ nbits))

end Sys2Proof.Machine
end

