-- ==== Sys2Proof/Safety.lean ====
section
/-! DEFINITION. What a good state and a safe run are, in the terms the statements use. -/

namespace Sys2Proof.Machine

/-- The canonical form of a buffer of capacity `size`: strictly rising positions, none past the buffer's end. -/
abbrev bufferWf (size : Nat) (m : Memory) : Prop := Memory.wf m ∧ ∀ x ∈ m, x.1 < size

/-- R36's invariant of the positions of a cursor in a buffer of capacity `size`. -/
abbrev positionsOk (size : Nat) (x : Cursor) : Prop :=
  x.rpos.toNat ≤ x.wpos.toNat ∧ x.wpos.toNat ≤ size ∧
  (x.mode = .bitw → 8 * x.wpos.toNat ≤ x.bitpos.toNat ∧ x.bitpos.toNat ≤ 8 * size) ∧
  (x.mode = .bitr → 8 * x.rpos.toNat ≤ x.bitpos.toNat ∧ x.bitpos.toNat ≤ 8 * x.wpos.toNat)

/-- R38: a cipher's count of unconsumed words is 0..256. -/
abbrev countOk (k : Cipher) : Prop := k.cnt.toNat ≤ 256

/-- A state of a KCB between commands: a legal capacity (R7), `BUSY = 0` (R28), R36 and the canonical form for both
cursors, and R38's range for both ciphers. -/
abbrev State.good (s : State) : Prop :=
  s.params.legal = true ∧ s.busy = false ∧
  positionsOk s.params.bufSize s.c0 ∧ bufferWf s.params.bufSize s.c0.buf ∧
  positionsOk s.params.bufSize s.c1 ∧ bufferWf s.params.bufSize s.c1.buf ∧
  countOk s.k0 ∧ countOk s.k1

/-- `FATAL = 1` exactly when the last command was the one that raised `CipherUninitialized`, or met the lock
(R30, R217). -/
abbrev State.fatalExplained (s : State) : Prop :=
  s.fatal = true ↔ (s.err = .cipherUninitialized ∨ s.err = .fatalLock)

/-- A run of `k` steps that meets no fault and no refusal. -/
def safeRun : Nat → State → Bool
  | 0, _ => true
  | k + 1, s =>
    match step s with
    | .next s' => safeRun k s'
    | .fault _ => false
    | .refused _ => false

end Sys2Proof.Machine
end

