-- ==== Sys2Proof/Certificates/Slice0/Obligations.lean ====
section
/-! DEFINITION. The statements about the KCB. The first part holds the tables and shapes of the spec that the
statements are written in, each made from the spec's text and not from the model's meanings. -/

namespace Sys2Proof.Claims

open Sys2Proof.Machine

/-- The outcome of one step of the machine. -/
abbrev Result := Host.Outcome State Fault Refusal

/-- A command of word `w` that raised `e`, as R213 gives it. -/
def raised (s : State) (e : ErrCode) (w : Word) : State :=
  { s with
    err := e
    errcmd := if e = .fatalLock then s.errcmd else w
    fatal := s.fatal || e = .cipherUninitialized
    busy := false }

/-- Changes the state an outcome answers, if it answers one. -/
def onNext (f : State → State) : Result → Result
  | .next s => .next (f s)
  | .fault r => .fault r
  | .refused r => .refused r

/-- The cursor a command selects (R72), if it is a cursor command. -/
def cursorOf : Instr → Option CursorId
  | .clr c | .setw c | .rd c _ _ _ _ | .wr c _ _ _ | .bwbegin c | .wbits c _ | .bwend c | .brbegin c | .rbits c _
  | .brend c => some c
  | .cseed _ | .cnext _ | .cdec _ | .cenc _ => none

/-- The cipher a command selects (R72), if it is a cipher command. -/
def cipherOf : Instr → Option CipherId
  | .cseed k | .cnext k | .cdec k | .cenc k => some k
  | .clr _ | .setw _ | .rd _ _ _ _ _ | .wr _ _ _ _ | .bwbegin _ | .wbits _ _ | .bwend _ | .brbegin _ | .rbits _ _
  | .brend _ => none

/-- The other cursor. -/
def otherCursor : CursorId → CursorId
  | .c0 => .c1
  | .c1 => .c0

/-- R150's table: whether a cursor command is accepted in a mode. -/
def modeAllows : Instr → Mode → Bool
  | .clr _, _ => true
  | .setw _, m => m = .off
  | .rd _ _ _ _ _, m => m = .off
  | .wr _ _ _ _, m => m = .off
  | .bwbegin _, m => m = .off
  | .wbits _ _, m => m = .bitw
  | .bwend _, m => m = .bitw
  | .brbegin _, m => m = .off
  | .rbits _ _, m => m = .bitr
  | .brend _, m => m = .bitr
  | .cseed _, _ | .cnext _, _ | .cdec _, _ | .cenc _, _ => true

/-- R211's lists: the codes each command can raise. -/
def codesOf : Instr → List ErrCode
  | .clr _ => [.fatalLock, .illegalCommand]
  | .setw _ => [.fatalLock, .illegalCommand, .modeViolation, .illegalPosition]
  | .rd _ _ _ _ _ => [.fatalLock, .illegalCommand, .modeViolation, .illegalOrder, .insufficientData]
  | .wr _ _ _ _ => [.fatalLock, .illegalCommand, .modeViolation, .illegalOrder, .bufferOverflow]
  | .bwbegin _ | .bwend _ | .brbegin _ | .brend _ => [.fatalLock, .illegalCommand, .modeViolation]
  | .wbits _ _ => [.fatalLock, .illegalCommand, .modeViolation, .illegalBitCount, .bufferOverflow]
  | .rbits _ _ => [.fatalLock, .illegalCommand, .modeViolation, .illegalBitCount, .insufficientData]
  | .cseed _ => [.fatalLock, .illegalCommand, .cipherReseed]
  | .cnext _ | .cdec _ | .cenc _ => [.fatalLock, .illegalCommand, .cipherUninitialized]

/-- R25: the commands whose success writes `DOUT`. -/
def writesDout : Instr → Bool
  | .rd _ _ _ _ _ | .rbits _ _ | .cnext _ | .cdec _ | .cenc _ => true
  | .clr _ | .setw _ | .wr _ _ _ _ | .bwbegin _ | .wbits _ _ | .bwend _ | .brbegin _ | .brend _ | .cseed _ => false

/-- R218's level 4: an error that the word's fields alone make (R107, R142). -/
def fieldError : Instr → Option ErrCode
  | .rd _ w _ _ ord | .wr _ w _ ord =>
    if (w = .w8 ∨ w = .w16) ∧ (ord = .middle ∨ ord = .inverseMiddle) then some .illegalOrder else none
  | .wbits _ n | .rbits _ n => if 1 ≤ n ∧ n ≤ 32 then none else some .illegalBitCount
  | .clr _ | .setw _ | .bwbegin _ | .bwend _ | .brbegin _ | .brend _ | .cseed _ | .cnext _ | .cdec _ | .cenc _ => none

/-- R218's level 5: the error of a cipher that is not, or is already, seeded. -/
def cipherError (s : State) : Instr → Option ErrCode
  | .cseed k => if (s.cipher k).seeded then some .cipherReseed else none
  | .cnext k | .cdec k | .cenc k => if (s.cipher k).seeded then none else some .cipherUninitialized
  | .clr _ | .setw _ | .rd _ _ _ _ _ | .wr _ _ _ _ | .bwbegin _ | .wbits _ _ | .bwend _ | .brbegin _ | .rbits _ _
  | .brend _ => none

/-- R218's level 6: too little data, too little room, or a position out of range (R121, R123, R125, R145, R148). -/
def boundsError (s : State) : Instr → Option ErrCode
  | .rd c w _ _ _ =>
    if (s.cursor c).rpos.toNat + Width.bytes w ≤ (s.cursor c).wpos.toNat then none else some .insufficientData
  | .rbits c n =>
    if (s.cursor c).bitpos.toNat + n ≤ 8 * (s.cursor c).wpos.toNat then none else some .insufficientData
  | .wr c w _ _ =>
    if (s.cursor c).wpos.toNat + Width.bytes w ≤ s.params.bufSize then none else some .bufferOverflow
  | .wbits c n => if (s.cursor c).bitpos.toNat + n ≤ 8 * s.params.bufSize then none else some .bufferOverflow
  | .setw c =>
    if (s.cursor c).rpos.toNat ≤ s.din.toNat ∧ s.din.toNat ≤ s.params.bufSize then none else some .illegalPosition
  | .clr _ | .bwbegin _ | .bwend _ | .brbegin _ | .brend _ | .cseed _ | .cnext _ | .cdec _ | .cenc _ => none

/-- Whether the selected cursor's mode forbids the command (R218's level 3). -/
def modeForbids (s : State) (i : Instr) : Bool :=
  match cursorOf i with
  | some c => !modeAllows i (s.cursor c).mode
  | none => false

/-- The error a decoded command reports: the first that applies, in R218's order. -/
def reportedError (s : State) (i : Instr) : Option ErrCode :=
  if s.fatal then some .fatalLock
  else if modeForbids s i then some .modeViolation
  else ((fieldError i).or (cipherError s i)).or (boundsError s i)

/-- The end, exclusive, of the buffer bytes that `RD`, `RBITS` and `BWEND` touch (R123, R146, R148). `BWEND` on a byte
boundary touches none, and the checks of `WR` and `WBITS` keep them inside the buffer. -/
def lastByte (s : State) : Instr → Nat
  | .rd c w _ _ _ => (s.cursor c).rpos.toNat + Width.bytes w
  | .rbits c n => ((s.cursor c).bitpos.toNat + n + 7) / 8
  | .bwend c => if (s.cursor c).bitpos.toNat % 8 = 0 then 0 else ((s.cursor c).bitpos.toNat + 7) / 8
  | .clr _ | .setw _ | .wr _ _ _ _ | .bwbegin _ | .wbits _ _ | .brbegin _ | .brend _ | .cseed _ | .cnext _ | .cdec _
  | .cenc _ => 0

/-- The match and mask of each row of spec/opcode_table.json. -/
def opcodeRows : List (Word × Word) :=
  [(0x00000000, 0xFFFFFFEF), (0x00000001, 0xFFFFFFEF), (0x00000002, 0xFFFFE00F), (0x00000003, 0xFFFFE08F),
   (0x00000004, 0xFFFFFFEF), (0x00000005, 0xFFF81FEF), (0x00000006, 0xFFFFFFEF), (0x00000007, 0xFFFFFFEF),
   (0x00000008, 0xFFF81FEF), (0x00000009, 0xFFFFFFEF), (0x0000000A, 0xFFFFFFEF), (0x0000000B, 0xFFFFFFEF),
   (0x0000000C, 0xFFFFFFEF), (0x0000000D, 0xFFFFFFEF)]

/-- R82: the words of `RD` and `WR` whose `ENC` is 7. -/
def reservedEncoding (w : Word) : Prop :=
  (w.extractLsb' 0 4 = 2#4 ∨ w.extractLsb' 0 4 = 3#4) ∧ w.extractLsb' 8 3 = 7#3

/-- R52: what a 32-bit read of each register returns while `BUSY = 0`. -/
def registerReads (s : State) : List (BusAddr × Word) :=
  [(0x000, 0), (0x004, s.statusWord), (0x008, s.errcmd),
   (0x010, s.din.extractLsb' 0 32), (0x014, s.din.extractLsb' 32 32),
   (0x018, s.dout.extractLsb' 0 32), (0x01C, s.dout.extractLsb' 32 32),
   (0x020, s.key0), (0x024, s.key1), (0x028, s.key2), (0x02C, s.key3),
   (0x040, s.c0.rpos.setWidth 32), (0x044, s.c0.wpos.setWidth 32), (0x048, s.c0.bitpos.setWidth 32),
   (0x050, s.c1.rpos.setWidth 32), (0x054, s.c1.wpos.setWidth 32), (0x058, s.c1.bitpos.setWidth 32)]

/-- The offsets whose reads R25 and R56 leave unspecified while `BUSY = 1`: `DOUT` and the position registers. -/
def unspecifiedOffsets : List BusAddr := [0x018, 0x01C, 0x040, 0x044, 0x048, 0x050, 0x054, 0x058]

/-- The host address of byte `p` of a cursor's window (R55). -/
def windowAddr (c : CursorId) (p : Nat) : BusAddr :=
  match c with
  | .c0 => BitVec.ofNat 14 (0x1000 + p)
  | .c1 => BitVec.ofNat 14 (0x2000 + p)

/-- The bytes of a cursor's buffer that an instruction may store to, at the positions a state holds (R125, R145, R146):
`WR`'s `w` bytes from `WPOS` on, and the bytes that hold a bit of `WBITS`'s field or of `BWEND`'s pad. -/
def instrStores (s : State) (i : Instr) (c : CursorId) (p : Nat) : Prop :=
  match i with
  | .wr c' w _ _ => c' = c ∧ (s.cursor c').wpos.toNat ≤ p ∧ p < (s.cursor c').wpos.toNat + Width.bytes w
  | .wbits c' n => c' = c ∧ (s.cursor c').bitpos.toNat < 8 * p + 8 ∧ 8 * p < (s.cursor c').bitpos.toNat + n
  | .bwend c' => c' = c ∧ (s.cursor c').bitpos.toNat < 8 * p + 8 ∧ 8 * p < (s.cursor c').bitpos.toNat
  | .clr _ | .setw _ | .rd _ _ _ _ _ | .bwbegin _ | .brbegin _ | .rbits _ _ | .brend _ | .cseed _ | .cnext _ | .cdec _
  | .cenc _ => False

/-- The host address of the first byte of a cursor's window (R55). -/
def windowBase : CursorId → Nat
  | .c0 => 0x1000
  | .c1 => 0x2000

/-- The bytes of a cursor's buffer that a host access may store to (R55). -/
def accessStores (s : State) (a : BusAccess) (c : CursorId) (p : Nat) : Prop :=
  match a with
  | .read _ _ => False
  | .write addr data =>
    p < s.params.bufSize ∧ p < 0x1000 ∧ addr.toNat ≤ windowBase c + p ∧
      windowBase c + p < addr.toNat + BusSize.bytes data.size

/-- The bytes of a cursor's buffer that the next step may store to: those of a host access, and, where the access
writes `CMD` or the event is an issue, those of the command (R23). The accesses made while it executes store none
(R31). -/
def stepStores (s : State) (c : CursorId) (p : Nat) : Prop :=
  match s.host with
  | [] => False
  | .rst :: _ => False
  | .issue w _ :: _ => ∃ i, decode w = .ok i ∧ instrStores s i c p
  | .access a :: _ =>
    accessStores s a c p ∨ ∃ w i, a = .write 0x000 (.b32 w) ∧ decode w = .ok i ∧ instrStores s i c p

/-- The working words of R172, in order. -/
def mixWords (m : Mix) : List Word := [m.a, m.b, m.c, m.d, m.e, m.f, m.g, m.h]

/-- Row `r` of R172: word `r` takes the shifted word `r+1`, word `r+3` adds word `r`, and word `r+1` adds word `r+2`,
the numbers modulo 8. -/
def mixRow (v : List Word) (r : Nat) (shift : Word → Word) : List Word :=
  let v := v.set r (v.getD r 0 ^^^ shift (v.getD ((r + 1) % 8) 0))
  let v := v.set ((r + 3) % 8) (v.getD ((r + 3) % 8) 0 + v.getD r 0)
  v.set ((r + 1) % 8) (v.getD ((r + 1) % 8) 0 + v.getD ((r + 2) % 8) 0)

/-- The shifts of R172's eight rows, in order. -/
def mixShifts : List (Word → Word) :=
  [(· <<< 11), (· >>> 2), (· <<< 8), (· >>> 16), (· <<< 10), (· >>> 4), (· <<< 8), (· >>> 9)]

/-- R173: every working word is GOLDEN, mixed four times. -/
def initWords : Mix :=
  mix^[4] ⟨0x9E3779B9, 0x9E3779B9, 0x9E3779B9, 0x9E3779B9, 0x9E3779B9, 0x9E3779B9, 0x9E3779B9, 0x9E3779B9⟩

/-- The working words of a pass of R173 over the words `src`, after its first `j` blocks of eight. -/
def passWords (start : Mix) (src : Nat → Word) : Nat → Mix
  | 0 => start
  | j + 1 =>
    let m := passWords start src j
    mix ⟨m.a + src (8 * j), m.b + src (8 * j + 1), m.c + src (8 * j + 2), m.d + src (8 * j + 3),
      m.e + src (8 * j + 4), m.f + src (8 * j + 5), m.g + src (8 * j + 6), m.h + src (8 * j + 7)⟩

/-- The word `MEM[n]` that a pass of R173 leaves: one of the working words after the block `n` is in. -/
def passMem (start : Mix) (src : Nat → Word) (n : Nat) : Word :=
  (mixWords (passWords start src (n / 8 + 1))).getD (n % 8) 0

/-- `MEM[n]` after both passes of R173 over the seed: the second goes on with the first's working words, over the
words the first left. -/
def initMem (seed : Nat → Word) : Nat → Word :=
  passMem (passWords initWords seed 32) (passMem initWords seed)

/-- R174's first change of `A`, by `i mod 4`. -/
def roundShift (i : Nat) (a : Word) : Word :=
  match i % 4 with
  | 0 => a ^^^ (a <<< 13)
  | 1 => a ^^^ (a >>> 6)
  | 2 => a ^^^ (a <<< 2)
  | _ => a ^^^ (a >>> 16)

/-- One iteration of R174's loop at index `i`, from the state `k` to the state `t`. -/
def isRound (k : Cipher) (i : BitVec 8) (t : Cipher) : Prop :=
  let x := WordArray.get k.mem i
  let a := WordArray.get k.mem (BitVec.ofNat 8 ((i.toNat + 128) % 256)) + roundShift i.toNat k.a
  let y := WordArray.get k.mem (BitVec.ofNat 8 (x.toNat / 4 % 256)) + a + k.b
  t.a = a ∧ (∀ j, WordArray.get t.mem j = if j = i then y else WordArray.get k.mem j) ∧
  t.b = WordArray.get t.mem (BitVec.ofNat 8 (y.toNat / 1024 % 256)) + x ∧
  (∀ j, WordArray.get t.rsl j = if j = i then t.b else WordArray.get k.rsl j) ∧
  t.c = k.c ∧ t.cnt = k.cnt ∧ t.seeded = k.seeded

/-- The state after the first `n` iterations of R174's loop. -/
def roundsFrom (k : Cipher) : Nat → Cipher
  | 0 => k
  | n + 1 => isaacRound (roundsFrom k n) (BitVec.ofNat 8 n)

end Sys2Proof.Claims

open Sys2Proof Sys2Proof.Machine Sys2Proof.Claims

/-! ### The command word -/

/-- R70 to R80: the decoder gives back every well-formed instruction from its command word. -/
def Obligations.DecodeInvertsEncode : Prop :=
  ∀ i : Instr, i.wellFormed = true → decode (encode i) = .ok i

/-- R80: no legal word has a bit the decoded instruction does not stand for. -/
def Obligations.EncodeInvertsDecode : Prop :=
  ∀ (w : Word) (i : Instr), decode w = .ok i → encode i = w ∧ i.wellFormed = true

/-- R80 to R82 against the opcode table: the legal words are those that match a row, less the reserved `ENC = 7`. -/
def Obligations.LegalWordsAreTheTableRows : Prop :=
  ∀ w : Word, (∃ i, decode w = .ok i) ↔
    ((∃ r ∈ opcodeRows, w &&& r.2 = r.1) ∧ ¬reservedEncoding w)

/-- R87's table, which the spec marks as its own inference: "derived: from rules R70 to R76". -/
def Obligations.WorkedEncodings : Prop :=
  ∀ p ∈ [(Instr.clr .c1, 0x00000010#32),
         (Instr.rd .c0 .w16 false .offset .little, 0x00001922#32),
         (Instr.rd .c0 .w32 true .none .middle, 0x000008C2#32),
         (Instr.wr .c1 .w64 .negative .inverseMiddle, 0x00001673#32),
         (Instr.wbits .c1 32, 0x00040015#32),
         (Instr.rbits .c0 1, 0x00002008#32),
         (Instr.cseed .k1, 0x0000001A#32),
         (Instr.cdec .k0, 0x0000000C#32),
         (Instr.cenc .k1, 0x0000001D#32)],
    encode p.1 = p.2 ∧ decode p.2 = .ok p.1

/-- R78: a word with a reserved bit set is illegal, and raises IllegalCommand. -/
def Obligations.ReservedBitsAreIllegal : Prop :=
  ∀ (w : Word) (s : State), w.extractLsb' 19 13 ≠ 0#13 →
    decode w = .error .reservedBits ∧
    (s.fatal = false →
      runWord w s = .next { s with err := .illegalCommand, errcmd := w, busy := false })

/-! ### The step -/

/-- A step runs the decoded instruction (R20, R23). The three clauses are the three ways a word reaches the engine in
the model: an issue event, a plain bus write to `CMD`, and `withFetchWord`. That the host's actions stand in a list
from which a step takes the first, and that `withFetchWord` puts the word there, is the model's choice
(notes/assumptions/4.md); that the accesses of an issue event are made with `BUSY = 1`, before the command and in the
same step, is the model's choice too (notes/assumptions/5.md). -/
def Obligations.StepRunsTheDecodedCommand : Prop :=
  ∀ (s : State) (w : Word) (i : Instr), decode w = .ok i →
    (∀ (during : List BusAccess) (rest : List HostEvent), s.host = .issue w during :: rest → s.busy = false →
      step s = exec i (State.busAccesses { s with host := rest, busy := true } during)) ∧
    (∀ rest : List HostEvent, s.host = .access (.write 0x000 (.b32 w)) :: rest → s.busy = false →
      step s = exec i { s with host := rest, busy := true }) ∧
    step (s.withFetchWord 32 w.toNat) = exec i { s with busy := true }

/-- R80: an illegal word raises IllegalCommand when it is issued. -/
def Obligations.StepRaisesIllegalCommand : Prop :=
  ∀ (s : State) (w : Word) (r : Illegal) (rest : List HostEvent),
    s.host = .issue w [] :: rest → s.busy = false → s.fatal = false → decode w = .error r →
    step s = .next { s with host := rest, err := .illegalCommand, errcmd := w, busy := false }

/-- R231: with nothing pending on the host bus the KCB holds all its state. The pending actions are the model's own
field (notes/assumptions/4.md). -/
def Obligations.IdleStepHoldsState : Prop :=
  ∀ s : State, s.host = [] → step s = .next s

/-! ### Reset -/

/-- R42's table, for the machine after reset and for the state a reset event leaves. -/
def Obligations.ResetValues : Prop :=
  ∀ (s : State) (rest : List HostEvent), s.host = .rst :: rest → ∃ t, step s = .next t ∧
    ∀ u ∈ [State.reset, t],
      u.din = 0 ∧ u.dout = 0 ∧ u.key0 = 0 ∧ u.key1 = 0 ∧ u.key2 = 0 ∧ u.key3 = 0 ∧ u.errcmd = 0 ∧
      u.busy = false ∧ u.err = .ok ∧ u.err.code = 0 ∧ u.fatal = false ∧ u.ovr = false ∧
      (∀ k, (u.cipher k).seeded = false) ∧
      ∀ c, (u.cursor c).rpos = 0 ∧ (u.cursor c).wpos = 0 ∧ (u.cursor c).bitpos = 0 ∧ (u.cursor c).mode = .off

/-- R43: after a reset every buffer byte is the draw of that reset, whatever the draw is; a step that is no reset keeps
every byte it does not store to, and which draw is in force; and a one-byte window write changes that byte alone, the
others holding their draw. The draw's number is the model's own field (notes/assumptions/2.md). -/
def Obligations.ResetDrawIsHeld : Prop :=
  (∀ (s : State) (rest : List HostEvent), s.host = .rst :: rest → ∃ t, step s = .next t ∧
    (∀ c p, t.byteAt c p = Config.bufDraw t.resetCount c p) ∧
    ∀ (c : CursorId) (p : Nat) (v : Byte), p < s.params.bufSize → p < 4096 → ∀ (c' : CursorId) (q : Nat),
      (t.busWrite (windowAddr c p) (.b8 v)).byteAt c' q =
        if c' = c ∧ q = p then v else Config.bufDraw t.resetCount c' q) ∧
  (∀ s t : State, (∀ rest, s.host ≠ .rst :: rest) → step s = .next t →
    t.resetCount = s.resetCount ∧ ∀ c p, ¬stepStores s c p → t.byteAt c p = s.byteAt c p)

/-! ### Errors and completion -/

/-- R217: while `FATAL = 1`, every word, legal or illegal, reports FatalLock and changes nothing else. -/
def Obligations.FatalLockStopsEveryWord : Prop :=
  ∀ (w : Word) (s : State), s.fatal = true → runWord w s = .next { s with err := .fatalLock, busy := false }

/-- R218: a command reports the first error that applies, in the rule's order, and raises it as R213 says; where none
applies it reports none. An illegal word meets only the lock before it. -/
def Obligations.FirstErrorIsReported : Prop :=
  (∀ (i : Instr) (s : State),
    match reportedError s i with
    | some e => exec i s = .next (raised s e (encode i))
    | none => ∀ t, exec i s = .next t → t.err = .ok) ∧
  (∀ (w : Word) (r : Illegal) (s : State), decode w = .error r →
    runWord w s = .next (raised s (if s.fatal then .fatalLock else .illegalCommand) w))

/-- Every command completes, but for the model's one stop: `RD`, `RBITS` or `BWEND` whose position registers, in breach
of R36, take it past the last buffer byte (R50), where no error applies. That stop is the model's choice
(notes/assumptions/10.md). -/
def Obligations.CommandsCompleteInsideTheBuffer : Prop :=
  ∀ (i : Instr) (s : State),
    if reportedError s i = none ∧ s.params.bufSize < lastByte s i then exec i s = .fault .noSuchByte
    else ∃ t, exec i s = .next t ∧ (t.err = .ok ↔ reportedError s i = none)

/-- R213, R214: a word that ends with an error changes `ERR`, `ERRCMD` and `FATAL` as R213 says, ends `BUSY`, and
changes nothing else. -/
def Obligations.RaisedErrorChangesNothingElse : Prop :=
  ∀ (w : Word) (s t : State), runWord w s = .next t → t.err ≠ .ok → t = raised s t.err w

/-- R219: a command that raises no error leaves `ERR = 0`, and `ERRCMD` and `FATAL` as they were. -/
def Obligations.SuccessKeepsErrcmdAndFatal : Prop :=
  ∀ (i : Instr) (s t : State), reportedError s i = none → exec i s = .next t →
    t.err = .ok ∧ t.errcmd = s.errcmd ∧ t.fatal = s.fatal ∧ t.busy = false

/-- R211's lists, which the spec marks as its own inference from the commands' rules. -/
def Obligations.CommandsRaiseOnlyTheirCodes : Prop :=
  ∀ (i : Instr) (s t : State), exec i s = .next t → t.err = .ok ∨ t.err ∈ codesOf i

/-- R150's table: the mode of the selected cursor decides, and the mode of a cursor the command does not select has
no effect on it. -/
def Obligations.ModeTableDecides : Prop :=
  (∀ (i : Instr) (s : State) (c : CursorId), cursorOf i = some c → s.fatal = false →
    if modeAllows i (s.cursor c).mode then ∀ t, exec i s = .next t → t.err ≠ .modeViolation
    else exec i s = .next { s with err := .modeViolation, errcmd := encode i, busy := false }) ∧
  (∀ (i : Instr) (s : State) (c : CursorId) (m : Mode), cursorOf i ≠ some c →
    exec i (s.setCursor c { s.cursor c with mode := m }) =
      onNext (fun t => t.setCursor c { t.cursor c with mode := m }) (exec i s))

/-! ### What commands leave alone -/

/-- R24, R26, R31: no command writes `DIN`, a key register or `OVR`; and none touches the model's own fields. -/
def Obligations.CommandsKeepHostRegisters : Prop :=
  ∀ (i : Instr) (s t : State), exec i s = .next t →
    t.din = s.din ∧ t.key0 = s.key0 ∧ t.key1 = s.key1 ∧ t.key2 = s.key2 ∧ t.key3 = s.key3 ∧ t.ovr = s.ovr ∧
    t.params = s.params ∧ t.resetCount = s.resetCount ∧ t.busyReads = s.busyReads ∧ t.host = s.host ∧
    t.answers = s.answers

/-- R25: only a command of the five that completes with `ERR = 0` writes `DOUT`. -/
def Obligations.OnlyResultsWriteDout : Prop :=
  ∀ (i : Instr) (s t : State), exec i s = .next t → (writesDout i = false ∨ t.err ≠ .ok) → t.dout = s.dout

/-- R124: a cursor command neither reads nor writes the other cursor, the ciphers (whose seeded bits are `STATUS`'s)
or the keys: with those replaced by anything, it does the same and leaves the replacements in place. -/
def Obligations.CursorCommandTouchesOnlyItsCursor : Prop :=
  ∀ (i : Instr) (c : CursorId), cursorOf i = some c →
    ∀ (x : Cursor) (a b : Cipher) (q0 q1 q2 q3 : Word) (s : State),
      let f : State → State := fun s =>
        { s.setCursor (otherCursor c) x with k0 := a, k1 := b, key0 := q0, key1 := q1, key2 := q2, key3 := q3 }
      exec i (f s) = onNext f (exec i s)

/-- R180: no command reads or writes a cipher it does not select, and a cipher command reads and writes no cursor: with
those replaced by anything, it does the same and leaves the replacements in place. -/
def Obligations.CipherCommandTouchesOnlyItsCipher : Prop :=
  (∀ (i : Instr) (k : CipherId), cipherOf i ≠ some k → ∀ (x : Cipher) (s : State),
    exec i (s.setCipher k x) = onNext (fun t => t.setCipher k x) (exec i s)) ∧
  (∀ (i : Instr) (k : CipherId), cipherOf i = some k → ∀ (a b : Cursor) (s : State),
    exec i { s with c0 := a, c1 := b } = onNext (fun t => { t with c0 := a, c1 := b }) (exec i s))

/-! ### The byte cursor commands -/

/-- R120: CLR in every mode. -/
def Obligations.ClrResult : Prop :=
  ∀ (s : State) (c : CursorId), s.fatal = false →
    exec (.clr c) s = .next
      { s.setCursor c ⟨(s.cursor c).buf, 0, 0, 0, .off⟩ with err := .ok, busy := false }

/-- R121: SETW of a position in `[RPOS, BUF_SIZE]`. -/
def Obligations.SetwResult : Prop :=
  ∀ (s : State) (c : CursorId), s.fatal = false → (s.cursor c).mode = .off →
    (s.cursor c).rpos.toNat ≤ s.din.toNat → s.din.toNat ≤ s.params.bufSize →
    exec (.setw c) s = .next
      { s.setCursor c { s.cursor c with wpos := s.din.setWidth 13 } with err := .ok, busy := false }

/-- R123: RD with enough readable data inside the buffer: `DOUT` is the assembled value, widened as R112 says, and
`RPOS` moves by the width. -/
def Obligations.RdResult : Prop :=
  ∀ (s : State) (c : CursorId) (w : Width) (signed : Bool) (enc : OffsetEncoding) (ord : ByteOrder),
    let r := (s.cursor c).rpos.toNat
    let u := (assemble w enc ord (s.readBytes c r (Width.bytes w))).setWidth (8 * Width.bytes w)
    s.fatal = false → (s.cursor c).mode = .off → orderIllegal ord w = false →
    r + Width.bytes w ≤ (s.cursor c).wpos.toNat → r + Width.bytes w ≤ s.params.bufSize →
    exec (.rd c w signed enc ord) s = .next
      { s.setCursor c { s.cursor c with rpos := BitVec.ofNat 13 (r + Width.bytes w) } with
        dout := if signed then u.signExtend 64 else u.setWidth 64
        err := .ok
        busy := false }

/-- R125: WR with enough room: the bytes of `DIN`'s low `8w` bits stand from `WPOS` on in the order of the stream,
every other byte keeps its value, and `WPOS` moves by the width. -/
def Obligations.WrResult : Prop :=
  ∀ (s : State) (c : CursorId) (w : Width) (enc : OffsetEncoding) (ord : ByteOrder),
    let p := (s.cursor c).wpos.toNat
    s.fatal = false → (s.cursor c).mode = .off → orderIllegal ord w = false →
    p + Width.bytes w ≤ s.params.bufSize →
    ∃ t, exec (.wr c w enc ord) s = .next t ∧
      (∀ i, i < Width.bytes w → t.byteAt c (p + i) = (disassemble w enc ord s.din).getD i 0#8) ∧
      (∀ q, q < p ∨ p + Width.bytes w ≤ q → t.byteAt c q = s.byteAt c q) ∧
      t = { s.setCursor c
              { s.cursor c with buf := (t.cursor c).buf, wpos := BitVec.ofNat 13 (p + Width.bytes w) } with
            err := .ok
            busy := false }

/-- R103, R108, R110: value byte `V[P[i]]` of a read is the stored byte at stream position `i`, transformed where it
is the target byte and nowhere else, and no bit stands above the width. -/
def Obligations.AssembledBytes : Prop :=
  ∀ (w : Width) (enc : OffsetEncoding) (ord : ByteOrder) (bs : List Byte), orderIllegal ord w = false →
    bs.length = Width.bytes w →
    (∀ i, i < Width.bytes w →
      let j := (streamOrder ord w).getD i 0
      (assemble w enc ord bs).extractLsb' (8 * j) 8 =
        if j = targetByte enc ord w then offsetTransform enc (bs.getD i 0#8) else bs.getD i 0#8) ∧
    (assemble w enc ord bs).toNat < 2 ^ (8 * Width.bytes w)

/-- R103, R108, R111, R113: stream position `i` of a write holds value byte `V[P[i]]` of `DIN`, transformed where it is
the target byte and nowhere else; the stream is as long as the width. -/
def Obligations.DisassembledBytes : Prop :=
  ∀ (w : Width) (enc : OffsetEncoding) (ord : ByteOrder) (v : DWord), orderIllegal ord w = false →
    (disassemble w enc ord v).length = Width.bytes w ∧
    ∀ i, i < Width.bytes w →
      let j := (streamOrder ord w).getD i 0
      (disassemble w enc ord v).getD i 0#8 =
        if j = targetByte enc ord w then offsetTransform enc (v.extractLsb' (8 * j) 8) else v.extractLsb' (8 * j) 8

/-- A value written by WR and read back by RD at the same position, with the same width, encoding and order, is the
value, zero- or sign-extended. R126 says so, as the spec's own inference: "derived: from rules R102, R110, R111 and
R112". -/
def Obligations.WriteThenReadGivesTheValue : Prop :=
  ∀ (s : State) (c : CursorId) (w : Width) (signed : Bool) (enc : OffsetEncoding) (ord : ByteOrder),
    let p := (s.cursor c).wpos
    let v := s.din.setWidth (8 * Width.bytes w)
    s.fatal = false → (s.cursor c).mode = .off → orderIllegal ord w = false →
    p.toNat + Width.bytes w ≤ s.params.bufSize → p.toNat + Width.bytes w < 2 ^ 13 →
    ∃ t u, exec (.wr c w enc ord) s = .next t ∧
      exec (.rd c w signed enc ord) (t.setCursor c { t.cursor c with rpos := p }) = .next u ∧ u.err = .ok ∧
      u.dout = if signed then v.signExtend 64 else v.setWidth 64

/-! ### The cursor datapath -/

/-- R101's table, as arithmetic modulo 256. That each transform undoes itself is R102, the spec's own inference:
"derived: from rule R101". -/
def Obligations.OffsetTransforms : Prop :=
  ∀ x : Byte,
    offsetTransform .none x = x ∧
    ((offsetTransform .offset x).toNat : Int) = ((x.toNat : Int) - 128) % 256 ∧
    ((offsetTransform .negativeOffset x).toNat : Int) = (128 - (x.toNat : Int)) % 256 ∧
    ((offsetTransform .postNegativeOffset x).toNat : Int) = (128 - (x.toNat : Int)) % 256 ∧
    ((offsetTransform .preNegativeOffset x).toNat : Int) = (128 - (x.toNat : Int)) % 256 ∧
    ((offsetTransform .inverted x).toNat : Int) = (0 - (x.toNat : Int)) % 256 ∧
    ((offsetTransform .negative x).toNat : Int) = 255 - (x.toNat : Int) ∧
    ∀ enc, offsetTransform enc (offsetTransform enc x) = x

/-- R104's two orders, at every width. The two mixed orders are the spec's own choice, in R105 ("This spec reads `b1` as
the least significant byte") and R106 ("The values are this spec's"); each is the mirror of the other. That the model
takes R106's values and no parameter is its own choice (notes/assumptions/14.md). -/
def Obligations.StreamOrders : Prop :=
  (∀ w, streamOrder .big w = (List.range (Width.bytes w)).reverse) ∧
  (∀ w, streamOrder .little w = List.range (Width.bytes w)) ∧
  streamOrder .middle .w32 = [1, 0, 3, 2] ∧ streamOrder .inverseMiddle .w32 = [2, 3, 0, 1] ∧
  streamOrder .middle .w64 = [1, 0, 3, 2, 5, 4, 7, 6] ∧ streamOrder .inverseMiddle .w64 = [6, 7, 4, 5, 2, 3, 0, 1] ∧
  (∀ w, streamOrder .inverseMiddle w = (streamOrder .middle w).reverse)

/-- The targets of R108's table. At the mixed orders they follow from the orders the spec chose in R105 and R106. -/
def Obligations.TargetByteTable : Prop :=
  (∀ enc ord w, enc ≠ .preNegativeOffset → targetByte enc ord w = 0) ∧
  (∀ w, targetByte .preNegativeOffset .big w = 0) ∧
  (∀ w, targetByte .preNegativeOffset .little w = Width.bytes w - 1) ∧
  targetByte .preNegativeOffset .middle .w32 = 2 ∧ targetByte .preNegativeOffset .inverseMiddle .w32 = 1 ∧
  targetByte .preNegativeOffset .middle .w64 = 6 ∧ targetByte .preNegativeOffset .inverseMiddle .w64 = 1

/-! ### The bit cursor commands -/

/-- R144. -/
def Obligations.BwbeginResult : Prop :=
  ∀ (s : State) (c : CursorId), s.fatal = false → (s.cursor c).mode = .off →
    ∃ t, exec (.bwbegin c) s = .next t ∧ (t.cursor c).bitpos.toNat = 8 * (s.cursor c).wpos.toNat ∧
      t = { s.setCursor c { s.cursor c with bitpos := (t.cursor c).bitpos, mode := .bitw } with
            err := .ok
            busy := false }

/-- R145: the field's bits stand from `BITPOS` on, most significant first, and every other bit and every byte that
holds no bit of the field keep their values. -/
def Obligations.WbitsResult : Prop :=
  ∀ (s : State) (c : CursorId) (n : Nat),
    let q := (s.cursor c).bitpos.toNat
    s.fatal = false → (s.cursor c).mode = .bitw → 1 ≤ n → n ≤ 32 → q + n ≤ 8 * s.params.bufSize →
    ∃ t, exec (.wbits c n) s = .next t ∧
      (∀ k, k < n → t.bitAt c (q + k) = s.din.getLsbD (n - 1 - k)) ∧
      (∀ b, b < q ∨ q + n ≤ b → t.bitAt c b = s.bitAt c b) ∧
      (∀ p, 8 * p + 8 ≤ q ∨ q + n ≤ 8 * p → t.byteAt c p = s.byteAt c p) ∧
      t = { s.setCursor c { s.cursor c with buf := (t.cursor c).buf, bitpos := BitVec.ofNat 16 (q + n) } with
            err := .ok
            busy := false }

/-- R146: the bits from `BITPOS` to the end of its byte are 0, every other bit and every other byte keep their values,
and `WPOS` is the position of the next whole byte. -/
def Obligations.BwendResult : Prop :=
  ∀ (s : State) (c : CursorId),
    let q := (s.cursor c).bitpos.toNat
    s.fatal = false → (s.cursor c).mode = .bitw → q ≤ 8 * s.params.bufSize →
    ∃ t, exec (.bwend c) s = .next t ∧
      (∀ b, q ≤ b → b < 8 * ((q + 7) / 8) → t.bitAt c b = false) ∧
      (∀ b, b < q ∨ 8 * ((q + 7) / 8) ≤ b → t.bitAt c b = s.bitAt c b) ∧
      (∀ p, p < q / 8 ∨ (q + 7) / 8 ≤ p → t.byteAt c p = s.byteAt c p) ∧
      t = { s.setCursor c
              { s.cursor c with buf := (t.cursor c).buf, wpos := BitVec.ofNat 13 ((q + 7) / 8), mode := .off } with
            err := .ok
            busy := false }

/-- R147. -/
def Obligations.BrbeginResult : Prop :=
  ∀ (s : State) (c : CursorId), s.fatal = false → (s.cursor c).mode = .off →
    ∃ t, exec (.brbegin c) s = .next t ∧ (t.cursor c).bitpos.toNat = 8 * (s.cursor c).rpos.toNat ∧
      t = { s.setCursor c { s.cursor c with bitpos := (t.cursor c).bitpos, mode := .bitr } with
            err := .ok
            busy := false }

/-- R148: `DOUT` holds the field's bits, the first of them at bit `n-1`, and zeros above. -/
def Obligations.RbitsResult : Prop :=
  ∀ (s : State) (c : CursorId) (n : Nat),
    let q := (s.cursor c).bitpos.toNat
    s.fatal = false → (s.cursor c).mode = .bitr → 1 ≤ n → n ≤ 32 → q + n ≤ 8 * (s.cursor c).wpos.toNat →
    q + n ≤ 8 * s.params.bufSize →
    ∃ t, exec (.rbits c n) s = .next t ∧
      (∀ k, k < n → t.dout.getLsbD (n - 1 - k) = s.bitAt c (q + k)) ∧ t.dout.toNat < 2 ^ n ∧
      t = { s.setCursor c { s.cursor c with bitpos := BitVec.ofNat 16 (q + n) } with
            dout := t.dout
            err := .ok
            busy := false }

/-- R149. -/
def Obligations.BrendResult : Prop :=
  ∀ (s : State) (c : CursorId), s.fatal = false → (s.cursor c).mode = .bitr →
    exec (.brend c) s = .next
      { s.setCursor c
          { s.cursor c with rpos := BitVec.ofNat 13 (((s.cursor c).bitpos.toNat + 7) / 8), mode := .off } with
        err := .ok
        busy := false }

/-- R145, R148: a field that WBITS wrote is what RBITS reads at the same bit position. -/
def Obligations.BitFieldRoundTrip : Prop :=
  ∀ (s : State) (c : CursorId) (n : Nat),
    let q := (s.cursor c).bitpos
    s.fatal = false → (s.cursor c).mode = .bitw → 1 ≤ n → n ≤ 32 → q.toNat + n ≤ 8 * s.params.bufSize →
    ∃ t, exec (.wbits c n) s = .next t ∧
      ∀ wpos : BitVec 13, q.toNat + n ≤ 8 * wpos.toNat →
        ∃ u, exec (.rbits c n) (t.setCursor c { t.cursor c with mode := .bitr, bitpos := q, wpos := wpos }) = .next u ∧
          u.err = .ok ∧ u.dout.toNat = s.din.toNat % 2 ^ n

/-- The byte-wise formulation and the bit loop leave the same bytes, and change nothing but the buffer. R151 says so,
as the spec's own inference: "derived: from rules R140, R141 and R145". -/
def Obligations.BytewiseWriteAgrees : Prop :=
  ∀ (s : State) (c : CursorId) (pos n : Nat) (v : Word), 1 ≤ n → n ≤ 32 →
    (∀ p, (s.writeBitsBytewise c pos n v).byteAt c p = (s.writeBits c pos n (v.setWidth 64)).byteAt c p) ∧
    (s.writeBitsBytewise c pos n v).setCursor c (s.cursor c) = s ∧
    { (s.writeBitsBytewise c pos n v).cursor c with buf := (s.cursor c).buf } = s.cursor c

/-! ### The cipher commands -/

/-- R175: CSEED of an unseeded instance, and what it computes: `mix` is the eight rows of R172, the two passes over the
seed leave R173's words in `MEM`, and a first block is made. The spec marks R172 and R173 "from general knowledge", and
that the model takes this generator and no parameter is its own choice (notes/assumptions/13.md). -/
def Obligations.CseedResult : Prop :=
  (∀ m : Mix, mixWords (mix m) = mixShifts.zipIdx.foldl (fun v x => mixRow v x.2 x.1) (mixWords m)) ∧
  ∀ (s : State) (k : CipherId), s.fatal = false → (s.cipher k).seeded = false →
    ∃ t, exec (.cseed k) s = .next t ∧
      (t.cipher k).seeded = true ∧ (t.cipher k).cnt = 256#9 ∧ (t.cipher k).c = 1#32 ∧
      t.cipher k = (s.cipher k).seed s.key0 s.key1 s.key2 s.key3 ∧
      t = { s.setCipher k (t.cipher k) with err := .ok, busy := false } ∧
      let seed : Nat → Word := fun n => [s.key0, s.key1, s.key2, s.key3].getD n 0
      ∃ mem rsl : WordArray,
        (∀ n, n < 256 → WordArray.get rsl (BitVec.ofNat 8 n) = seed n) ∧
        (∀ n, n < 256 → WordArray.get mem (BitVec.ofNat 8 n) = initMem seed n) ∧
        t.cipher k =
          { isaacBlock { s.cipher k with mem := mem, rsl := rsl, a := 0, b := 0, c := 0 } with
            seeded := true
            cnt := 256#9 }

/-- What an instance holds after CSEED, and so every byte it yields, is a function of the four key
words: nothing of its state before is left. R44 and R185 say so, as the spec's own inferences from R173, R175, R180 and
R181. -/
def Obligations.SeedDependsOnlyOnTheKey : Prop :=
  ∀ (s s' : State) (k k' : CipherId), s.fatal = false → s'.fatal = false →
    (s.cipher k).seeded = false → (s'.cipher k').seeded = false →
    s.key0 = s'.key0 → s.key1 = s'.key1 → s.key2 = s'.key2 → s.key3 = s'.key3 →
    ∃ t t', exec (.cseed k) s = .next t ∧ exec (.cseed k') s' = .next t' ∧ t.cipher k = t'.cipher k' ∧
      ∀ n, (Cipher.advance^[n] (t.cipher k)).nextByte = (Cipher.advance^[n] (t'.cipher k')).nextByte

/-- R181 to R184: each consuming command on a seeded instance takes exactly one keystream byte `b` and advances the
instance once; `DOUT` is `b`, `DIN[7:0] - b` or `DIN[7:0] + b`, modulo 256. -/
def Obligations.ConsumingCommandsResult : Prop :=
  ∀ (s : State) (k : CipherId), s.fatal = false → (s.cipher k).seeded = true →
    let b := ((s.cipher k).nextByte).toNat
    ∀ p ∈ [(Instr.cnext k, b), (Instr.cdec k, (s.din.toNat % 256 + 256 - b) % 256),
           (Instr.cenc k, (s.din.toNat % 256 + b) % 256)],
      exec p.1 s = .next
        { s.setCipher k (s.cipher k).advance with dout := BitVec.ofNat 64 p.2, err := .ok, busy := false }

/-- R187, the spec's own inference "from rules R182 to R184". -/
def Obligations.KeystreamResultsAreBytes : Prop :=
  ∀ (s t : State) (k : CipherId) (i : Instr), i ∈ [Instr.cnext k, Instr.cdec k, Instr.cenc k] →
    exec i s = .next t → t.err = .ok → t.dout.toNat ≤ 255 ∧ t.dout.extractLsb' 8 56 = 0#56

/-- R174, R176 and R177, which the spec marks "from general knowledge". One round of `Isaac` is R174's at every index,
and a block is the 256 rounds in order after `C` and `B` have changed. An instance with a whole block left yields
`RSL[255]`, `RSL[254]`, ..., `RSL[0]`; the 257th byte is `RSL[255]` of the next block, which `Isaac` makes first, and
leaves `CNT = 255`. That the model takes this generator and no parameter is its own choice
(notes/assumptions/13.md). -/
def Obligations.BlockServes256Bytes : Prop :=
  (∀ (k : Cipher) (i : BitVec 8), isRound k i (isaacRound k i)) ∧
  (∀ k : Cipher, isaacBlock k = roundsFrom { k with c := k.c + 1, b := k.b + (k.c + 1) } 256) ∧
  ∀ k : Cipher, k.cnt = 256#9 →
    (∀ n, n < 256 →
      (Cipher.advance^[n] k).nextByte = (WordArray.get k.rsl (BitVec.ofNat 8 (255 - n))).setWidth 8 ∧
      (Cipher.advance^[n] k).cnt = BitVec.ofNat 9 (256 - n)) ∧
    (Cipher.advance^[256] k) = { k with cnt := 0#9 } ∧
    (Cipher.advance^[256] k).nextByte = (WordArray.get (isaacBlock { k with cnt := 0#9 }).rsl 255#8).setWidth 8 ∧
    (Cipher.advance^[257] k).cnt = 255#9

/-- CDEC on one instance undoes CENC on another, where both were seeded with the same key and have advanced by
the same number of bytes; the two may be instances of one KCB or of two. R188 says so, as the spec's own inference
from R183 to R185. -/
def Obligations.DecodeUndoesEncode : Prop :=
  ∀ (s s' : State) (k k' : CipherId) (a a' : Cipher) (q0 q1 q2 q3 : Word) (n : Nat),
    s.fatal = false → s'.fatal = false →
    s.cipher k = Cipher.advance^[n] (a.seed q0 q1 q2 q3) → s'.cipher k' = Cipher.advance^[n] (a'.seed q0 q1 q2 q3) →
    ∃ t u, exec (.cenc k) s = .next t ∧ exec (.cdec k') { s' with din := t.dout } = .next u ∧
      u.err = .ok ∧ u.dout.toNat = s.din.toNat % 256

/-! ### Invariants -/

/-- Reset gives a good state: R7, R28, R36, R38 and the canonical form hold. -/
def Obligations.ResetIsGood : Prop :=
  State.reset.good ∧ State.reset.fatalExplained

/-- Every step keeps a good state good: R7, R28, R36 and R38, and the canonical form of both buffers. -/
def Obligations.StepKeepsGood : Prop :=
  ∀ s t : State, s.good → step s = .next t → t.good

/-- A good state never meets a fault or a refusal, so a run from it goes on for ever. -/
def Obligations.GoodStatesRunForEver : Prop :=
  ∀ s : State, s.good → ∀ n, safeRun n s = true

/-- R30, R217: `FATAL = 1` exactly when `ERR` is CipherUninitialized or FatalLock, and every step keeps it so. -/
def Obligations.StepKeepsFatalExplained : Prop :=
  ∀ s t : State, s.fatalExplained → step s = .next t → t.fatalExplained

/-- R241: no step but a reset clears `FATAL` or a `SEEDED` bit, and a seeded instance cannot be seeded again. -/
def Obligations.OnlyResetUnlocks : Prop :=
  (∀ s t : State, (∀ rest, s.host ≠ .rst :: rest) → step s = .next t →
    (s.fatal = true → t.fatal = true) ∧ ∀ k, (s.cipher k).seeded = true → (t.cipher k).seeded = true) ∧
  (∀ (s t : State) (k : CipherId), (s.cipher k).seeded = true → exec (.cseed k) s = .next t →
    t.cipher k = s.cipher k ∧ t.err ≠ .ok) ∧
  (∀ (s t : State) (rest : List HostEvent), s.host = .rst :: rest → step s = .next t →
    t.fatal = false ∧ ∀ k, (t.cipher k).seeded = false)

/-- R245: no step changes the capacity. -/
def Obligations.CapacityIsFixed : Prop :=
  ∀ s t : State, step s = .next t → t.params = s.params

/-! ### The host bus -/

/-- R27: the fields of `STATUS`, which a read returns, and a write to it, which `BUSY` does not hold up. What a read
returns while `BUSY = 1` is in `RegisterMapReads`. -/
def Obligations.StatusRegister : Prop :=
  ∀ s : State,
    (s.statusWord.getLsbD 0 = s.busy ∧ s.statusWord.extractLsb' 1 3 = 0#3 ∧
      s.statusWord.extractLsb' 4 4 = s.err.code ∧ s.statusWord.getLsbD 8 = s.fatal ∧
      s.statusWord.getLsbD 9 = s.ovr ∧ s.statusWord.getLsbD 10 = s.k0.seeded ∧
      s.statusWord.getLsbD 11 = s.k1.seeded ∧ s.statusWord.extractLsb' 12 2 = s.c0.mode.code ∧
      s.statusWord.extractLsb' 14 2 = s.c1.mode.code ∧ s.statusWord.extractLsb' 16 16 = 0#16) ∧
    (s.busy = false → (s.busRead .full 0x004).answers = .b32 s.statusWord :: s.answers) ∧
    ∀ v : Word, s.busWrite 0x004 (.b32 v) = { s with ovr := s.ovr && !v.getLsbD 9 }

/-- R52, R53: what a 32-bit read of each aligned register offset returns while `BUSY = 0`. While `BUSY = 1` it is the
same for every offset but those of `DOUT` and the positions (R25, R56), which is the model's inference from R61
(notes/assumptions/19.md). -/
def Obligations.RegisterMapReads : Prop :=
  ∀ s : State,
    (∀ p ∈ registerReads s, s.busy = false ∨ p.1 ∉ unspecifiedOffsets →
      (s.busRead .full p.1).answers = .b32 p.2 :: s.answers) ∧
    (∀ a : BusAddr, a.toNat < 0x1000 → a.toNat % 4 = 0 → (∀ p ∈ registerReads s, p.1 ≠ a) →
      (s.busRead .full a).answers = .b32 0 :: s.answers)

/-- R24, R26, R52: what a 32-bit write of each register does while `BUSY = 0`; the read-only ones ignore it. -/
def Obligations.RegisterMapWrites : Prop :=
  ∀ (s : State) (v : Word), s.busy = false →
    s.busWrite 0x010 (.b32 v) = { s with din := s.din.extractLsb' 32 32 ++ v } ∧
    s.busWrite 0x014 (.b32 v) = { s with din := v ++ s.din.extractLsb' 0 32 } ∧
    s.busWrite 0x020 (.b32 v) = { s with key0 := v } ∧
    s.busWrite 0x024 (.b32 v) = { s with key1 := v } ∧
    s.busWrite 0x028 (.b32 v) = { s with key2 := v } ∧
    s.busWrite 0x02C (.b32 v) = { s with key3 := v } ∧
    ∀ a ∈ ([0x008, 0x018, 0x01C, 0x040, 0x044, 0x048, 0x050, 0x054, 0x058] : List BusAddr),
      s.busWrite a (.b32 v) = s

/-- R53, R54, R55: an access to a reserved offset of the register space or past the windows, a register access that is
not aligned or not 32 bits wide, and a window access that is not aligned or begins past the buffer change nothing of
the KCB, and a read of one returns 0. R54's refusal of the bad ones is not taken up: the model gives the effect the rule
also states (notes/assumptions/7.md). While `BUSY = 1` it is the model's inference that such a write leaves `OVR` alone
(notes/assumptions/9.md) and that such a read still returns 0 (notes/assumptions/19.md). -/
def Obligations.ReservedAndBadAccesses : Prop :=
  ∀ (s : State) (a : BusAddr) (data : BusData),
    (0x3000 ≤ a.toNat ∨
      (a.toNat < 0x1000 ∧ (data.size ≠ .full ∨ a.toNat % 4 ≠ 0 ∨ ∀ p ∈ registerReads s, p.1 ≠ a)) ∨
      (0x1000 ≤ a.toNat ∧ a.toNat < 0x3000 ∧
        (a.toNat % BusSize.bytes data.size ≠ 0 ∨ s.params.bufSize ≤ a.toNat % 0x1000))) →
    s.busWrite a data = s ∧ s.busRead data.size a = { s with answers := busData data.size 0 :: s.answers }

/-- R55, R57: an aligned window write that begins inside the buffer stores the bytes that lie inside it, byte `j` of its
data at position `p + j`; it changes no other byte and nothing but the buffer; and the same read returns those bytes and
0 past the buffer's end, which is the data itself where the access lies inside. That an access which ends past the
buffer is taken byte by byte is the model's inference from R55 (notes/assumptions/8.md). -/
def Obligations.WindowWriteThenRead : Prop :=
  ∀ (s : State) (c : CursorId) (p : Nat) (data : BusData),
    let n := BusSize.bytes data.size
    s.busy = false → p % n = 0 → p < s.params.bufSize → p < 4096 →
    let t := s.busWrite (windowAddr c p) data
    (∀ j, j < n → p + j < s.params.bufSize → t.byteAt c (p + j) = data.word.extractLsb' (8 * j) 8) ∧
    (∀ q, q < p ∨ p + n ≤ q ∨ s.params.bufSize ≤ q → t.byteAt c q = s.byteAt c q) ∧
    t = s.setCursor c { s.cursor c with buf := (t.cursor c).buf } ∧
    (∃ answer : BusData, (t.busRead data.size (windowAddr c p)).answers = answer :: s.answers ∧
      answer.size = data.size ∧
      ∀ j, j < n → answer.word.extractLsb' (8 * j) 8 =
        if p + j < s.params.bufSize then data.word.extractLsb' (8 * j) 8 else 0#8) ∧
    (p + n ≤ s.params.bufSize → (t.busRead data.size (windowAddr c p)).answers = data :: s.answers)

/-- R31: while `BUSY = 1`, a write to `CMD`, `DIN`, a key register or a window byte is dropped and sets `OVR`. -/
def Obligations.BusyWritesAreDropped : Prop :=
  ∀ (s : State) (v : Word), s.busy = true →
    (∀ a ∈ ([0x000, 0x010, 0x014, 0x020, 0x024, 0x028, 0x02C] : List BusAddr),
      s.busWrite a (.b32 v) = { s with ovr := true }) ∧
    ∀ (c : CursorId) (p : Nat) (data : BusData), p % BusSize.bytes data.size = 0 → p < s.params.bufSize → p < 4096 →
      s.busWrite (windowAddr c p) data = { s with ovr := true }

/-- R62: a host access other than a write to `CMD` moves no position, no mode and no cipher, leaves `DOUT`, `ERR`,
`ERRCMD` and `FATAL`, and a read leaves every register and buffer byte as it was. The last clause: a step whose pending
action is such an access makes it, and does nothing else. The pending actions and the record of answers are the model's
own fields (notes/assumptions/4.md, notes/assumptions/12.md). -/
def Obligations.BusAccessSideEffects : Prop :=
  (∀ (s : State) (a : BusAccess),
    let t := s.busAccess a
    (t.dout = s.dout ∧ t.err = s.err ∧ t.errcmd = s.errcmd ∧ t.fatal = s.fatal ∧ t.busy = s.busy ∧
      (∀ c, (t.cursor c).rpos = (s.cursor c).rpos ∧ (t.cursor c).wpos = (s.cursor c).wpos ∧
        (t.cursor c).bitpos = (s.cursor c).bitpos ∧ (t.cursor c).mode = (s.cursor c).mode) ∧
      ∀ k, t.cipher k = s.cipher k) ∧
    ∀ (size : BusSize) (addr : BusAddr), a = .read size addr →
      t = { s with answers := t.answers, busyReads := t.busyReads }) ∧
  ∀ (s : State) (a : BusAccess) (rest : List HostEvent), s.host = .access a :: rest →
    (∀ w, a ≠ .write 0x000 (.b32 w)) → step s = .next (State.busAccess { s with host := rest } a)

/-- R25, R56: a read of `DOUT`, a position register or a window byte while `BUSY = 1` returns an unspecified value:
here the free value of that read, whatever it is. That it is drawn anew at each such read is the model's choice
(notes/assumptions/6.md). -/
def Obligations.BusyReadsAreFree : Prop :=
  ∀ (s : State), s.busy = true →
    (∀ a ∈ unspecifiedOffsets,
      s.busRead .full a =
        { s with answers := .b32 (Config.busyRead s.busyReads) :: s.answers, busyReads := s.busyReads + 1 }) ∧
    ∀ (c : CursorId) (p : Nat) (size : BusSize), p % BusSize.bytes size = 0 → p < s.params.bufSize → p < 4096 →
      s.busRead size (windowAddr c p) =
        { s with
          answers := busData size (Config.busyRead s.busyReads) :: s.answers
          busyReads := s.busyReads + 1 }

/-- R221: the level of `err_o`: what it is, that a successful command lowers it unless `FATAL = 1`, and that once
`FATAL = 1` no step but a reset lowers it. -/
def Obligations.ErrorOutputLevel : Prop :=
  (∀ s : State, s.errOut = true ↔ (s.fatal = true ∨ s.err.code ≠ 0#4)) ∧
  (∀ (i : Instr) (s t : State), exec i s = .next t → t.err = .ok → t.errOut = t.fatal) ∧
  (∀ s t : State, s.fatal = true → (∀ rest, s.host ≠ .rst :: rest) → step s = .next t → t.errOut = true) ∧
  (∀ (s t : State) (rest : List HostEvent), s.host = .rst :: rest → step s = .next t → t.errOut = false)
end

