-- ==== Sys2Proof/Laws/Memory.lean ====
section
/-! SUPPORT. The laws of a buffer's contents: reading after a write, and the canonical form. -/

namespace Sys2Proof.Machine

@[simp] theorem read?_nil (a : Nat) : Memory.read? [] a = none := rfl

theorem read?_write (m : Memory) (a b : Nat) (v : Byte) :
    (Memory.write m a v).read? b = if b = a then some v else m.read? b := by
  induction m with
  | nil => simp only [Memory.write, Memory.read?]; split_ifs <;> simp_all
  | cons x m ih =>
    obtain ⟨q, y⟩ := x
    by_cases hb : b = a
    · subst hb
      simp only [Memory.write]
      split_ifs with h1 h2
      · simp [Memory.read?]
      · simp [Memory.read?]
      · simp [Memory.read?, Ne.symm h2, ih]
    · have hba : ¬a = b := fun e => hb e.symm
      simp only [Memory.write]
      split_ifs with h1 h2
      · simp [Memory.read?, hba]
      · simp [Memory.read?, hba, ← h2]
      · simp [Memory.read?, ih, hb]

@[simp] theorem read?_write_same (m : Memory) (a : Nat) (v : Byte) : (Memory.write m a v).read? a = some v := by
  simp [read?_write]

theorem read?_write_other (m : Memory) {a b : Nat} (v : Byte) (h : b ≠ a) :
    (Memory.write m a v).read? b = m.read? b := by
  simp [read?_write, h]

/-- A position of the written contents is one that was listed before, or the one written. -/
theorem mem_write {m : Memory} {a : Nat} {v : Byte} {x : Host.Cell} (h : x ∈ Memory.write m a v) :
    x ∈ m ∨ x = (a, v) := by
  induction m with
  | nil => right; simpa [Memory.write] using h
  | cons y m ih =>
    obtain ⟨q, z⟩ := y
    simp only [Memory.write] at h
    split_ifs at h with h1 h2
    · simp only [List.mem_cons] at h ⊢; tauto
    · simp only [List.mem_cons] at h ⊢; tauto
    · simp only [List.mem_cons] at h ⊢
      rcases h with h | h
      · exact Or.inl (Or.inl h)
      · rcases ih h with h | h
        · exact Or.inl (Or.inr h)
        · exact Or.inr h

/-- A write keeps the canonical form. -/
theorem write_wf {m : Memory} (a : Nat) (v : Byte) (h : Memory.wf m) : Memory.wf (Memory.write m a v) := by
  induction m with
  | nil => simp [Memory.write, Memory.wf]
  | cons x m ih =>
    obtain ⟨q, y⟩ := x
    obtain ⟨hq, hm⟩ := List.pairwise_cons.mp h
    simp only [Memory.write]
    split_ifs with h1 h2
    · refine List.pairwise_cons.mpr ⟨fun z hz => ?_, h⟩
      rcases List.mem_cons.mp hz with rfl | hz
      · exact h1
      · exact lt_trans h1 (hq z hz)
    · subst h2
      exact List.pairwise_cons.mpr ⟨hq, hm⟩
    · refine List.pairwise_cons.mpr ⟨fun z hz => ?_, ih hm⟩
      rcases mem_write hz with hz | rfl
      · exact hq z hz
      · simp only; omega

/-- A write inside the buffer keeps the buffer's form. -/
theorem write_bufferWf {size : Nat} {m : Memory} {a : Nat} (v : Byte) (h : bufferWf size m) (ha : a < size) :
    bufferWf size (Memory.write m a v) := by
  refine ⟨write_wf a v h.1, fun x hx => ?_⟩
  rcases mem_write hx with hx | rfl
  · exact h.2 x hx
  · exact ha

theorem read?_eq_none_of_lt {m : Memory} {a : Nat} (h : ∀ x ∈ m, a < x.1) : m.read? a = none := by
  induction m with
  | nil => rfl
  | cons x m ih =>
    have hx := h x (by simp)
    simp only [Memory.read?]
    rw [if_neg (by omega), ih (fun y hy => h y (by simp [hy]))]

/-- Equal contents are equal data: the canonical form decides the list. -/
theorem memory_ext {m m' : Memory} (h : Memory.wf m) (h' : Memory.wf m') (heq : ∀ a, m.read? a = m'.read? a) :
    m = m' := by
  induction m generalizing m' with
  | nil =>
    cases m' with
    | nil => rfl
    | cons y m' => have := heq y.1; simp [Memory.read?] at this
  | cons x m ih =>
    obtain ⟨hx, hm⟩ := List.pairwise_cons.mp h
    cases m' with
    | nil => have := heq x.1; simp [Memory.read?] at this
    | cons y m' =>
      obtain ⟨hy, hm'⟩ := List.pairwise_cons.mp h'
      have e1 := heq x.1
      have e2 := heq y.1
      have hxy : x.1 = y.1 := by
        rcases lt_trichotomy x.1 y.1 with hlt | heq' | hlt
        · rw [read?_eq_none_of_lt (m := y :: m') (fun z hz => by
            rcases List.mem_cons.mp hz with rfl | hz
            · exact hlt
            · exact lt_trans hlt (hy z hz))] at e1
          simp [Memory.read?] at e1
        · exact heq'
        · rw [read?_eq_none_of_lt (m := x :: m) (fun z hz => by
            rcases List.mem_cons.mp hz with rfl | hz
            · exact hlt
            · exact lt_trans hlt (hx z hz))] at e2
          simp [Memory.read?] at e2
      have hv : x.2 = y.2 := by simpa [Memory.read?, hxy] using e1
      have : m = m' := ih hm hm' (fun a => by
        by_cases ha : x.1 = a
        · rw [read?_eq_none_of_lt (m := m) (fun z hz => ha ▸ hx z hz),
            read?_eq_none_of_lt (m := m') (fun z hz => ha ▸ hxy ▸ hy z hz)]
        · have := heq a
          simpa [Memory.read?, ha, hxy ▸ ha] using this)
      rw [this, Prod.ext hxy hv]

end Sys2Proof.Machine
end

