-- ==== Sys2Proof/Laws/State.lean ====
section
/-! SUPPORT. The fields of a state after each named update: one lemma for each field, true by `rfl`, so that no later
proof unfolds a record update. -/

namespace Sys2Proof.Machine

/-! ### setCursor -/

@[simp] theorem setCursor_din (s : State) (c : CursorId) (x : Cursor) : (s.setCursor c x).din = s.din := rfl
@[simp] theorem setCursor_dout (s : State) (c : CursorId) (x : Cursor) : (s.setCursor c x).dout = s.dout := rfl
@[simp] theorem setCursor_key0 (s : State) (c : CursorId) (x : Cursor) : (s.setCursor c x).key0 = s.key0 := rfl
@[simp] theorem setCursor_key1 (s : State) (c : CursorId) (x : Cursor) : (s.setCursor c x).key1 = s.key1 := rfl
@[simp] theorem setCursor_key2 (s : State) (c : CursorId) (x : Cursor) : (s.setCursor c x).key2 = s.key2 := rfl
@[simp] theorem setCursor_key3 (s : State) (c : CursorId) (x : Cursor) : (s.setCursor c x).key3 = s.key3 := rfl
@[simp] theorem setCursor_errcmd (s : State) (c : CursorId) (x : Cursor) : (s.setCursor c x).errcmd = s.errcmd := rfl
@[simp] theorem setCursor_busy (s : State) (c : CursorId) (x : Cursor) : (s.setCursor c x).busy = s.busy := rfl
@[simp] theorem setCursor_err (s : State) (c : CursorId) (x : Cursor) : (s.setCursor c x).err = s.err := rfl
@[simp] theorem setCursor_fatal (s : State) (c : CursorId) (x : Cursor) : (s.setCursor c x).fatal = s.fatal := rfl
@[simp] theorem setCursor_ovr (s : State) (c : CursorId) (x : Cursor) : (s.setCursor c x).ovr = s.ovr := rfl
@[simp] theorem setCursor_k0 (s : State) (c : CursorId) (x : Cursor) : (s.setCursor c x).k0 = s.k0 := rfl
@[simp] theorem setCursor_k1 (s : State) (c : CursorId) (x : Cursor) : (s.setCursor c x).k1 = s.k1 := rfl
@[simp] theorem setCursor_params (s : State) (c : CursorId) (x : Cursor) : (s.setCursor c x).params = s.params := rfl
@[simp] theorem setCursor_resetCount (s : State) (c : CursorId) (x : Cursor) : (s.setCursor c x).resetCount = s.resetCount := rfl
@[simp] theorem setCursor_busyReads (s : State) (c : CursorId) (x : Cursor) : (s.setCursor c x).busyReads = s.busyReads := rfl
@[simp] theorem setCursor_host (s : State) (c : CursorId) (x : Cursor) : (s.setCursor c x).host = s.host := rfl
@[simp] theorem setCursor_answers (s : State) (c : CursorId) (x : Cursor) : (s.setCursor c x).answers = s.answers := rfl

@[simp] theorem setCursor_cursor_same (s : State) (c : CursorId) (x : Cursor) : (s.setCursor c x).cursor c = x := by
  cases c <;> rfl

theorem setCursor_cursor_other (s : State) {c c' : CursorId} (x : Cursor) (h : c' ≠ c) :
    (s.setCursor c x).cursor c' = s.cursor c' := by
  cases c <;> cases c' <;> first | rfl | exact absurd rfl h

@[simp] theorem setCursor_cipher (s : State) (c : CursorId) (x : Cursor) (k : CipherId) :
    (s.setCursor c x).cipher k = s.cipher k := by
  cases k <;> rfl

@[simp] theorem setCursor_setCursor (s : State) (c : CursorId) (x y : Cursor) :
    (s.setCursor c x).setCursor c y = s.setCursor c y := by
  cases c <;> rfl

@[simp] theorem setCursor_cursor_self (s : State) (c : CursorId) : s.setCursor c (s.cursor c) = s := by
  cases c <;> rfl

/-! ### setCipher -/

@[simp] theorem setCipher_din (s : State) (k : CipherId) (x : Cipher) : (s.setCipher k x).din = s.din := rfl
@[simp] theorem setCipher_dout (s : State) (k : CipherId) (x : Cipher) : (s.setCipher k x).dout = s.dout := rfl
@[simp] theorem setCipher_key0 (s : State) (k : CipherId) (x : Cipher) : (s.setCipher k x).key0 = s.key0 := rfl
@[simp] theorem setCipher_key1 (s : State) (k : CipherId) (x : Cipher) : (s.setCipher k x).key1 = s.key1 := rfl
@[simp] theorem setCipher_key2 (s : State) (k : CipherId) (x : Cipher) : (s.setCipher k x).key2 = s.key2 := rfl
@[simp] theorem setCipher_key3 (s : State) (k : CipherId) (x : Cipher) : (s.setCipher k x).key3 = s.key3 := rfl
@[simp] theorem setCipher_errcmd (s : State) (k : CipherId) (x : Cipher) : (s.setCipher k x).errcmd = s.errcmd := rfl
@[simp] theorem setCipher_busy (s : State) (k : CipherId) (x : Cipher) : (s.setCipher k x).busy = s.busy := rfl
@[simp] theorem setCipher_err (s : State) (k : CipherId) (x : Cipher) : (s.setCipher k x).err = s.err := rfl
@[simp] theorem setCipher_fatal (s : State) (k : CipherId) (x : Cipher) : (s.setCipher k x).fatal = s.fatal := rfl
@[simp] theorem setCipher_ovr (s : State) (k : CipherId) (x : Cipher) : (s.setCipher k x).ovr = s.ovr := rfl
@[simp] theorem setCipher_c0 (s : State) (k : CipherId) (x : Cipher) : (s.setCipher k x).c0 = s.c0 := rfl
@[simp] theorem setCipher_c1 (s : State) (k : CipherId) (x : Cipher) : (s.setCipher k x).c1 = s.c1 := rfl
@[simp] theorem setCipher_params (s : State) (k : CipherId) (x : Cipher) : (s.setCipher k x).params = s.params := rfl
@[simp] theorem setCipher_resetCount (s : State) (k : CipherId) (x : Cipher) : (s.setCipher k x).resetCount = s.resetCount := rfl
@[simp] theorem setCipher_busyReads (s : State) (k : CipherId) (x : Cipher) : (s.setCipher k x).busyReads = s.busyReads := rfl
@[simp] theorem setCipher_host (s : State) (k : CipherId) (x : Cipher) : (s.setCipher k x).host = s.host := rfl
@[simp] theorem setCipher_answers (s : State) (k : CipherId) (x : Cipher) : (s.setCipher k x).answers = s.answers := rfl

@[simp] theorem setCipher_cipher_same (s : State) (k : CipherId) (x : Cipher) : (s.setCipher k x).cipher k = x := by
  cases k <;> rfl

theorem setCipher_cipher_other (s : State) {k k' : CipherId} (x : Cipher) (h : k' ≠ k) :
    (s.setCipher k x).cipher k' = s.cipher k' := by
  cases k <;> cases k' <;> first | rfl | exact absurd rfl h

@[simp] theorem setCipher_cursor (s : State) (k : CipherId) (x : Cipher) (c : CursorId) :
    (s.setCipher k x).cursor c = s.cursor c := by
  cases c <;> rfl

/-! ### raise -/

@[simp] theorem raise_din (s : State) (e : ErrCode) (w : Word) : (s.raise e w).din = s.din := rfl
@[simp] theorem raise_dout (s : State) (e : ErrCode) (w : Word) : (s.raise e w).dout = s.dout := rfl
@[simp] theorem raise_key0 (s : State) (e : ErrCode) (w : Word) : (s.raise e w).key0 = s.key0 := rfl
@[simp] theorem raise_key1 (s : State) (e : ErrCode) (w : Word) : (s.raise e w).key1 = s.key1 := rfl
@[simp] theorem raise_key2 (s : State) (e : ErrCode) (w : Word) : (s.raise e w).key2 = s.key2 := rfl
@[simp] theorem raise_key3 (s : State) (e : ErrCode) (w : Word) : (s.raise e w).key3 = s.key3 := rfl
@[simp] theorem raise_busy (s : State) (e : ErrCode) (w : Word) : (s.raise e w).busy = false := rfl
@[simp] theorem raise_err (s : State) (e : ErrCode) (w : Word) : (s.raise e w).err = e := rfl
@[simp] theorem raise_ovr (s : State) (e : ErrCode) (w : Word) : (s.raise e w).ovr = s.ovr := rfl
@[simp] theorem raise_c0 (s : State) (e : ErrCode) (w : Word) : (s.raise e w).c0 = s.c0 := rfl
@[simp] theorem raise_c1 (s : State) (e : ErrCode) (w : Word) : (s.raise e w).c1 = s.c1 := rfl
@[simp] theorem raise_k0 (s : State) (e : ErrCode) (w : Word) : (s.raise e w).k0 = s.k0 := rfl
@[simp] theorem raise_k1 (s : State) (e : ErrCode) (w : Word) : (s.raise e w).k1 = s.k1 := rfl
@[simp] theorem raise_params (s : State) (e : ErrCode) (w : Word) : (s.raise e w).params = s.params := rfl
@[simp] theorem raise_resetCount (s : State) (e : ErrCode) (w : Word) : (s.raise e w).resetCount = s.resetCount := rfl
@[simp] theorem raise_busyReads (s : State) (e : ErrCode) (w : Word) : (s.raise e w).busyReads = s.busyReads := rfl
@[simp] theorem raise_host (s : State) (e : ErrCode) (w : Word) : (s.raise e w).host = s.host := rfl
@[simp] theorem raise_answers (s : State) (e : ErrCode) (w : Word) : (s.raise e w).answers = s.answers := rfl
@[simp] theorem raise_errcmd (s : State) (e : ErrCode) (w : Word) :
    (s.raise e w).errcmd = if e = .fatalLock then s.errcmd else w := rfl
@[simp] theorem raise_fatal (s : State) (e : ErrCode) (w : Word) :
    (s.raise e w).fatal = (s.fatal || decide (e = .cipherUninitialized)) := rfl
@[simp] theorem raise_cursor (s : State) (e : ErrCode) (w : Word) (c : CursorId) :
    (s.raise e w).cursor c = s.cursor c := by
  cases c <;> rfl
@[simp] theorem raise_cipher (s : State) (e : ErrCode) (w : Word) (k : CipherId) :
    (s.raise e w).cipher k = s.cipher k := by
  cases k <;> rfl

/-! ### complete -/

@[simp] theorem complete_din (s : State) : s.complete.din = s.din := rfl
@[simp] theorem complete_dout (s : State) : s.complete.dout = s.dout := rfl
@[simp] theorem complete_key0 (s : State) : s.complete.key0 = s.key0 := rfl
@[simp] theorem complete_key1 (s : State) : s.complete.key1 = s.key1 := rfl
@[simp] theorem complete_key2 (s : State) : s.complete.key2 = s.key2 := rfl
@[simp] theorem complete_key3 (s : State) : s.complete.key3 = s.key3 := rfl
@[simp] theorem complete_errcmd (s : State) : s.complete.errcmd = s.errcmd := rfl
@[simp] theorem complete_busy (s : State) : s.complete.busy = false := rfl
@[simp] theorem complete_err (s : State) : s.complete.err = .ok := rfl
@[simp] theorem complete_fatal (s : State) : s.complete.fatal = s.fatal := rfl
@[simp] theorem complete_ovr (s : State) : s.complete.ovr = s.ovr := rfl
@[simp] theorem complete_c0 (s : State) : s.complete.c0 = s.c0 := rfl
@[simp] theorem complete_c1 (s : State) : s.complete.c1 = s.c1 := rfl
@[simp] theorem complete_k0 (s : State) : s.complete.k0 = s.k0 := rfl
@[simp] theorem complete_k1 (s : State) : s.complete.k1 = s.k1 := rfl
@[simp] theorem complete_params (s : State) : s.complete.params = s.params := rfl
@[simp] theorem complete_resetCount (s : State) : s.complete.resetCount = s.resetCount := rfl
@[simp] theorem complete_busyReads (s : State) : s.complete.busyReads = s.busyReads := rfl
@[simp] theorem complete_host (s : State) : s.complete.host = s.host := rfl
@[simp] theorem complete_answers (s : State) : s.complete.answers = s.answers := rfl
@[simp] theorem complete_cursor (s : State) (c : CursorId) : s.complete.cursor c = s.cursor c := by
  cases c <;> rfl
@[simp] theorem complete_cipher (s : State) (k : CipherId) : s.complete.cipher k = s.cipher k := by
  cases k <;> rfl

/-! ### putByte -/

@[simp] theorem putByte_din (s : State) (c : CursorId) (p : Nat) (v : Byte) : (s.putByte c p v).din = s.din := rfl
@[simp] theorem putByte_dout (s : State) (c : CursorId) (p : Nat) (v : Byte) : (s.putByte c p v).dout = s.dout := rfl
@[simp] theorem putByte_key0 (s : State) (c : CursorId) (p : Nat) (v : Byte) : (s.putByte c p v).key0 = s.key0 := rfl
@[simp] theorem putByte_key1 (s : State) (c : CursorId) (p : Nat) (v : Byte) : (s.putByte c p v).key1 = s.key1 := rfl
@[simp] theorem putByte_key2 (s : State) (c : CursorId) (p : Nat) (v : Byte) : (s.putByte c p v).key2 = s.key2 := rfl
@[simp] theorem putByte_key3 (s : State) (c : CursorId) (p : Nat) (v : Byte) : (s.putByte c p v).key3 = s.key3 := rfl
@[simp] theorem putByte_errcmd (s : State) (c : CursorId) (p : Nat) (v : Byte) : (s.putByte c p v).errcmd = s.errcmd := rfl
@[simp] theorem putByte_busy (s : State) (c : CursorId) (p : Nat) (v : Byte) : (s.putByte c p v).busy = s.busy := rfl
@[simp] theorem putByte_err (s : State) (c : CursorId) (p : Nat) (v : Byte) : (s.putByte c p v).err = s.err := rfl
@[simp] theorem putByte_fatal (s : State) (c : CursorId) (p : Nat) (v : Byte) : (s.putByte c p v).fatal = s.fatal := rfl
@[simp] theorem putByte_ovr (s : State) (c : CursorId) (p : Nat) (v : Byte) : (s.putByte c p v).ovr = s.ovr := rfl
@[simp] theorem putByte_k0 (s : State) (c : CursorId) (p : Nat) (v : Byte) : (s.putByte c p v).k0 = s.k0 := rfl
@[simp] theorem putByte_k1 (s : State) (c : CursorId) (p : Nat) (v : Byte) : (s.putByte c p v).k1 = s.k1 := rfl
@[simp] theorem putByte_params (s : State) (c : CursorId) (p : Nat) (v : Byte) : (s.putByte c p v).params = s.params := rfl
@[simp] theorem putByte_resetCount (s : State) (c : CursorId) (p : Nat) (v : Byte) : (s.putByte c p v).resetCount = s.resetCount := rfl
@[simp] theorem putByte_busyReads (s : State) (c : CursorId) (p : Nat) (v : Byte) : (s.putByte c p v).busyReads = s.busyReads := rfl
@[simp] theorem putByte_host (s : State) (c : CursorId) (p : Nat) (v : Byte) : (s.putByte c p v).host = s.host := rfl
@[simp] theorem putByte_answers (s : State) (c : CursorId) (p : Nat) (v : Byte) : (s.putByte c p v).answers = s.answers := rfl

@[simp] theorem putByte_cursor_same (s : State) (c : CursorId) (p : Nat) (v : Byte) :
    (s.putByte c p v).cursor c = { s.cursor c with buf := (s.cursor c).buf.write p v } :=
  setCursor_cursor_same s c _

theorem putByte_cursor_other (s : State) {c c' : CursorId} (p : Nat) (v : Byte) (h : c' ≠ c) :
    (s.putByte c p v).cursor c' = s.cursor c' :=
  setCursor_cursor_other s _ h

/-! ### afterReset -/

@[simp] theorem afterReset_din (s : State) : s.afterReset.din = State.reset.din := rfl
@[simp] theorem afterReset_dout (s : State) : s.afterReset.dout = State.reset.dout := rfl
@[simp] theorem afterReset_key0 (s : State) : s.afterReset.key0 = State.reset.key0 := rfl
@[simp] theorem afterReset_key1 (s : State) : s.afterReset.key1 = State.reset.key1 := rfl
@[simp] theorem afterReset_key2 (s : State) : s.afterReset.key2 = State.reset.key2 := rfl
@[simp] theorem afterReset_key3 (s : State) : s.afterReset.key3 = State.reset.key3 := rfl
@[simp] theorem afterReset_errcmd (s : State) : s.afterReset.errcmd = State.reset.errcmd := rfl
@[simp] theorem afterReset_busy (s : State) : s.afterReset.busy = State.reset.busy := rfl
@[simp] theorem afterReset_err (s : State) : s.afterReset.err = State.reset.err := rfl
@[simp] theorem afterReset_fatal (s : State) : s.afterReset.fatal = State.reset.fatal := rfl
@[simp] theorem afterReset_ovr (s : State) : s.afterReset.ovr = State.reset.ovr := rfl
@[simp] theorem afterReset_c0 (s : State) : s.afterReset.c0 = State.reset.c0 := rfl
@[simp] theorem afterReset_c1 (s : State) : s.afterReset.c1 = State.reset.c1 := rfl
@[simp] theorem afterReset_k0 (s : State) : s.afterReset.k0 = State.reset.k0 := rfl
@[simp] theorem afterReset_k1 (s : State) : s.afterReset.k1 = State.reset.k1 := rfl
@[simp] theorem afterReset_params (s : State) : s.afterReset.params = s.params := rfl
@[simp] theorem afterReset_resetCount (s : State) : s.afterReset.resetCount = s.resetCount + 1 := rfl
@[simp] theorem afterReset_busyReads (s : State) : s.afterReset.busyReads = s.busyReads := rfl
@[simp] theorem afterReset_host (s : State) : s.afterReset.host = s.host := rfl
@[simp] theorem afterReset_answers (s : State) : s.afterReset.answers = s.answers := rfl

end Sys2Proof.Machine
end

