-- ==== Sys2Proof/Laws/Buffer.lean ====
section
/-! SUPPORT. The laws of the buffer operations: what a byte or a bit reads as after each write, what a run of writes
leaves alone, and that the buffer keeps its form. -/

namespace Sys2Proof.Machine

/-! ### Bytes -/

/-- A byte depends on the written contents and on which reset draw is in force, and on nothing else. -/
theorem byteAt_congr {s t : State} {c : CursorId} (hb : (t.cursor c).buf = (s.cursor c).buf)
    (hr : t.resetCount = s.resetCount) (p : Nat) : t.byteAt c p = s.byteAt c p := by
  simp [State.byteAt, hb, hr]

theorem byteAt_putByte_same (s : State) (c : CursorId) (p q : Nat) (v : Byte) :
    (s.putByte c p v).byteAt c q = if q = p then v else s.byteAt c q := by
  simp only [State.byteAt, putByte_cursor_same, read?_write, putByte_resetCount]
  split_ifs <;> rfl

theorem byteAt_putByte_other (s : State) {c c' : CursorId} (p q : Nat) (v : Byte) (h : c' ≠ c) :
    (s.putByte c p v).byteAt c' q = s.byteAt c' q :=
  byteAt_congr (s := s) (by rw [putByte_cursor_other s p v h]) (putByte_resetCount s c p v) q

theorem byteAt_setCursor_sameBuf (s : State) (c c' : CursorId) (x : Cursor) (h : x.buf = (s.cursor c).buf) (q : Nat) :
    (s.setCursor c x).byteAt c' q = s.byteAt c' q := by
  refine byteAt_congr (s := s) ?_ (setCursor_resetCount s c x) q
  by_cases hc : c' = c
  · subst hc; simp [h]
  · rw [setCursor_cursor_other s x hc]

@[simp] theorem byteAt_complete (s : State) (c : CursorId) (q : Nat) : s.complete.byteAt c q = s.byteAt c q :=
  byteAt_congr (by simp) rfl q

@[simp] theorem byteAt_raise (s : State) (e : ErrCode) (w : Word) (c : CursorId) (q : Nat) :
    (s.raise e w).byteAt c q = s.byteAt c q :=
  byteAt_congr (by simp) rfl q

/-- `putByte` changes the buffer of one cursor, and nothing else. -/
theorem putByte_eq_setCursor (s : State) (c : CursorId) (p : Nat) (v : Byte) :
    s.putByte c p v = s.setCursor c { s.cursor c with buf := ((s.putByte c p v).cursor c).buf } := by
  rw [putByte_cursor_same]; rfl

/-- A run of byte writes changes the buffer of one cursor, and nothing else. -/
theorem writeBytes_eq_setCursor (s : State) (c : CursorId) (p : Nat) (bs : List Byte) :
    s.writeBytes c p bs = s.setCursor c { s.cursor c with buf := ((s.writeBytes c p bs).cursor c).buf } := by
  induction bs generalizing s p with
  | nil => exact (setCursor_cursor_self s c).symm
  | cons b bs ih =>
    simp only [State.writeBytes]
    rw [ih (s.putByte c p b) (p + 1)]
    simp [State.putByte]

theorem byteAt_writeBytes (s : State) (c : CursorId) (p q : Nat) (bs : List Byte) :
    (s.writeBytes c p bs).byteAt c q
      = if p ≤ q ∧ q < p + bs.length then bs.getD (q - p) 0#8 else s.byteAt c q := by
  induction bs generalizing s p with
  | nil => rw [if_neg (by simp only [List.length_nil]; omega)]; rfl
  | cons b bs ih =>
    simp only [State.writeBytes, ih, byteAt_putByte_same, List.length_cons]
    by_cases h1 : p + 1 ≤ q ∧ q < p + 1 + bs.length
    · rw [if_pos h1, if_pos (by omega), show q - p = (q - (p + 1)) + 1 by omega, List.getD_cons_succ]
    · rw [if_neg h1]
      by_cases h2 : q = p
      · subst h2; simp
      · rw [if_neg h2, if_neg (by omega)]

theorem writeBytes_bufferWf {size : Nat} (s : State) (c : CursorId) (p : Nat) (bs : List Byte)
    (h : bufferWf size (s.cursor c).buf) (hp : p + bs.length ≤ size) :
    bufferWf size ((s.writeBytes c p bs).cursor c).buf := by
  induction bs generalizing s p with
  | nil => exact h
  | cons b bs ih =>
    simp only [List.length_cons] at hp
    refine ih (s.putByte c p b) (p + 1) ?_ (by omega)
    rw [putByte_cursor_same]
    exact write_bufferWf b h (by omega)

@[simp] theorem readBytes_length (s : State) (c : CursorId) (p n : Nat) : (s.readBytes c p n).length = n := by
  simp [State.readBytes]

theorem readBytes_getD (s : State) (c : CursorId) (p n i : Nat) (h : i < n) :
    (s.readBytes c p n).getD i 0#8 = s.byteAt c (p + i) := by
  simp [State.readBytes, h]

/-- Reading back a run of writes gives the bytes written. -/
theorem readBytes_writeBytes (s : State) (c : CursorId) (p : Nat) (bs : List Byte) :
    (s.writeBytes c p bs).readBytes c p bs.length = bs := by
  refine List.ext_getElem (by simp) fun i h1 h2 => ?_
  simp [State.readBytes, byteAt_writeBytes, h2]

/-! ### Bits -/

theorem bitOfByte_setBitOfByte (x : Byte) (p q : Nat) (b : Bool) :
    bitOfByte (setBitOfByte x p b) q = if q % 8 = p % 8 then b else bitOfByte x q := by
  have hp : p % 8 < 8 := Nat.mod_lt _ (by decide)
  have hq : q % 8 < 8 := Nat.mod_lt _ (by decide)
  simp only [bitOfByte, setBitOfByte]
  generalize p % 8 = i at *
  generalize q % 8 = j at *
  interval_cases i <;> interval_cases j <;> cases b <;> simp

/-- A byte is its eight bits. -/
theorem byte_ext_bits {x y : Byte} (h : ∀ p, p < 8 → bitOfByte x p = bitOfByte y p) : x = y := by
  refine BitVec.eq_of_getLsbD_eq fun i hi => ?_
  have := h (7 - i) (by omega)
  rwa [bitOfByte, bitOfByte, Nat.mod_eq_of_lt (by omega), show 7 - (7 - i) = i by omega] at this

theorem bitAt_congr {s t : State} {c : CursorId} (h : ∀ p, t.byteAt c p = s.byteAt c p) (q : Nat) :
    t.bitAt c q = s.bitAt c q := by
  simp [State.bitAt, h]

theorem bitAt_putBit_same (s : State) (c : CursorId) (p q : Nat) (b : Bool) :
    (s.putBit c p b).bitAt c q = if q = p then b else s.bitAt c q := by
  simp only [State.bitAt, State.putBit, byteAt_putByte_same, Nat.shiftRight_eq_div_pow]
  by_cases h : q / 2 ^ 3 = p / 2 ^ 3
  · rw [if_pos h, bitOfByte_setBitOfByte]
    by_cases h2 : q = p
    · subst h2; simp
    · rw [if_neg h2, if_neg (by omega), h]
  · rw [if_neg h, if_neg (fun e => h (by rw [e]))]

/-- A run of bit writes changes the buffer of one cursor, and nothing else. -/
theorem writeBits_eq_setCursor (s : State) (c : CursorId) (p n : Nat) (v : DWord) :
    s.writeBits c p n v = s.setCursor c { s.cursor c with buf := ((s.writeBits c p n v).cursor c).buf } := by
  induction n generalizing s p with
  | zero => exact (setCursor_cursor_self s c).symm
  | succ n ih =>
    simp only [State.writeBits]
    rw [ih (s.putBit c p (v.getLsbD n)) (p + 1)]
    simp [State.putBit, State.putByte]

/-- The field is written most significant bit first (R140, R145), and every other bit keeps its value. -/
theorem bitAt_writeBits (s : State) (c : CursorId) (p n q : Nat) (v : DWord) :
    (s.writeBits c p n v).bitAt c q
      = if p ≤ q ∧ q < p + n then v.getLsbD (p + n - 1 - q) else s.bitAt c q := by
  induction n generalizing s p with
  | zero => rw [if_neg (by omega)]; rfl
  | succ n ih =>
    simp only [State.writeBits, ih, bitAt_putBit_same]
    by_cases h1 : p + 1 ≤ q ∧ q < p + 1 + n
    · rw [if_pos h1, if_pos (by omega)]; congr 1; omega
    · rw [if_neg h1]
      by_cases h2 : q = p
      · subst h2; rw [if_pos rfl, if_pos (by omega)]; congr 1; omega
      · rw [if_neg h2, if_neg (by omega)]

theorem byteAt_writeBits_outside (s : State) (c : CursorId) (p n q : Nat) (v : DWord)
    (h : 8 * q + 8 ≤ p ∨ p + n ≤ 8 * q) : (s.writeBits c p n v).byteAt c q = s.byteAt c q := by
  induction n generalizing s p with
  | zero => rfl
  | succ n ih =>
    simp only [State.writeBits]
    rw [ih _ _ (by omega), State.putBit, byteAt_putByte_same, if_neg]
    rw [Nat.shiftRight_eq_div_pow]; omega

theorem writeBits_bufferWf {size : Nat} (s : State) (c : CursorId) (p n : Nat) (v : DWord)
    (h : bufferWf size (s.cursor c).buf) (hp : p + n ≤ 8 * size) :
    bufferWf size ((s.writeBits c p n v).cursor c).buf := by
  induction n generalizing s p with
  | zero => exact h
  | succ n ih =>
    refine ih (s.putBit c p (v.getLsbD n)) (p + 1) ?_ (by omega)
    rw [State.putBit, putByte_cursor_same]
    refine write_bufferWf _ h ?_
    rw [Nat.shiftRight_eq_div_pow]; omega

/-- Bit `j` of a field read at `p`: the bits stand most significant first (R148). -/
theorem getLsbD_readBits (s : State) (c : CursorId) (p n j : Nat) (hn : n ≤ 64) :
    (s.readBits c p n).getLsbD j = (decide (j < n) && s.bitAt c (p + n - 1 - j)) := by
  induction n generalizing p with
  | zero => simp [State.readBits]
  | succ n ih =>
    simp only [State.readBits, BitVec.getLsbD_or, BitVec.getLsbD_shiftLeft, BitVec.getLsbD_setWidth,
      ih (p + 1) (by omega)]
    rcases Nat.lt_trichotomy j n with h | h | h
    · have e : p + 1 + n - 1 - j = p + (n + 1) - 1 - j := by omega
      simp [h, show j < n + 1 by omega, show j < 64 by omega]
    · subst h
      simp [show j < 64 by omega]
    · have h1 : ¬ j < n := by omega
      have h2 : ¬ j < n + 1 := by omega
      have h3 : j - n ≠ 0 := by omega
      simp [h1, h2, h3]

end Sys2Proof.Machine
end

