-- ==== Sys2Proof/Laws/Command.lean ====
section
/-! SUPPORT. What the operations that every command shares can do: one lemma for each, which says it all. -/

namespace Sys2Proof.Machine

@[simp] theorem firstError_nil : firstError [] = none := rfl

@[simp] theorem firstError_cons (b : Bool) (e : ErrCode) (rest : List (Bool × ErrCode)) :
    firstError ((b, e) :: rest) = if b = true then some e else firstError rest := rfl

/-- No check of a list applies: the first does not, and none of the rest does. -/
theorem firstError_cons_eq_none (b : Bool) (e : ErrCode) (rest : List (Bool × ErrCode)) :
    firstError ((b, e) :: rest) = none ↔ b = false ∧ firstError rest = none := by
  cases b <;> simp

/-- The error a list of checks gives is one it lists. -/
theorem firstError_mem {checks : List (Bool × ErrCode)} {e : ErrCode} (h : firstError checks = some e) :
    (true, e) ∈ checks := by
  induction checks with
  | nil => simp at h
  | cons x rest ih =>
    obtain ⟨b, e'⟩ := x
    rw [firstError_cons] at h
    split_ifs at h with hb
    · simp_all
    · exact List.mem_cons_of_mem _ (ih h)

theorem command_fatal (i : Instr) (checks : List (Bool × ErrCode)) {s : State}
    (effect : Host.Outcome State Fault Refusal) (h : s.fatal = true) :
    command i checks s effect = .next (s.raise .fatalLock (encode i)) := by
  simp [command, h]

theorem command_error (i : Instr) {checks : List (Bool × ErrCode)} {s : State} {e : ErrCode}
    (effect : Host.Outcome State Fault Refusal) (h : s.fatal = false) (he : firstError checks = some e) :
    command i checks s effect = .next (s.raise e (encode i)) := by
  simp [command, h, he]

theorem command_effect (i : Instr) {checks : List (Bool × ErrCode)} {s : State}
    (effect : Host.Outcome State Fault Refusal) (h : s.fatal = false) (he : firstError checks = none) :
    command i checks s effect = effect := by
  simp [command, h, he]

/-- All that a command can do: meet the lock, raise the first error that applies, or have its effect. -/
theorem command_cases (i : Instr) (checks : List (Bool × ErrCode)) (s : State)
    (effect : Host.Outcome State Fault Refusal) :
    (s.fatal = true ∧ command i checks s effect = .next (s.raise .fatalLock (encode i))) ∨
    (s.fatal = false ∧ ∃ e, firstError checks = some e ∧ command i checks s effect = .next (s.raise e (encode i))) ∨
    (s.fatal = false ∧ firstError checks = none ∧ command i checks s effect = effect) := by
  cases hf : s.fatal
  · cases he : firstError checks with
    | none => exact Or.inr (Or.inr ⟨rfl, rfl, command_effect i effect hf he⟩)
    | some e => exact Or.inr (Or.inl ⟨rfl, e, rfl, command_error i effect hf he⟩)
  · exact Or.inl ⟨rfl, command_fatal i checks effect hf⟩

/-- `withinBuffer` answers the completed state, or the fault; it answers a next state only where the bytes exist. -/
theorem withinBuffer_cases (s : State) (last : Nat) (s' : State) :
    (last ≤ s.params.bufSize ∧ withinBuffer s last s' = .next s'.complete) ∨
    (s.params.bufSize < last ∧ withinBuffer s last s' = .fault .noSuchByte) := by
  unfold withinBuffer
  split_ifs with h
  · exact Or.inl ⟨h, rfl⟩
  · exact Or.inr ⟨by omega, rfl⟩

theorem withinBuffer_next {s : State} {last : Nat} (s' : State) (h : last ≤ s.params.bufSize) :
    withinBuffer s last s' = .next s'.complete := by
  simp [withinBuffer, h]

theorem illegalWord_cases (w : Word) (s : State) :
    (s.fatal = true ∧ illegalWord w s = .next (s.raise .fatalLock w)) ∨
    (s.fatal = false ∧ illegalWord w s = .next (s.raise .illegalCommand w)) := by
  cases h : s.fatal <;> simp [illegalWord, h]

end Sys2Proof.Machine
end

