-- ==== Sys2Proof/Laws/Keystream.lean ====
section
/-! SUPPORT. The laws of the generator's arrays and of consuming the keystream. -/

namespace Sys2Proof.Machine

theorem get_put (m : WordArray) (i j : BitVec 8) (v : Word) :
    WordArray.get (WordArray.put m i v) j = if j = i then v else WordArray.get m j := by
  unfold WordArray.get WordArray.put
  rw [Vector.getElem_set]
  by_cases h : i = j
  · subst h; simp
  · rw [if_neg (fun e => h (BitVec.eq_of_toNat_eq e)), if_neg (fun e => h e.symm)]

/-- Two arrays with the same words are the same array. -/
theorem wordArray_ext {m m' : WordArray} (h : ∀ i, WordArray.get m i = WordArray.get m' i) : m = m' := by
  refine Vector.ext fun i hi => ?_
  have e : (BitVec.ofNat 8 i).toNat = i := by simp; omega
  have := h (BitVec.ofNat 8 i)
  simpa only [WordArray.get, e] using this

@[simp] theorem isaacRound_seeded (k : Cipher) (i : BitVec 8) : (isaacRound k i).seeded = k.seeded := rfl
@[simp] theorem isaacRound_cnt (k : Cipher) (i : BitVec 8) : (isaacRound k i).cnt = k.cnt := rfl
@[simp] theorem isaacRound_c (k : Cipher) (i : BitVec 8) : (isaacRound k i).c = k.c := rfl

theorem foldl_isaacRound_keeps (l : List (BitVec 8)) (k : Cipher) :
    (l.foldl isaacRound k).seeded = k.seeded ∧ (l.foldl isaacRound k).cnt = k.cnt ∧
      (l.foldl isaacRound k).c = k.c := by
  induction l generalizing k with
  | nil => simp
  | cons i l ih => simpa using ih (isaacRound k i)

@[simp] theorem isaacBlock_seeded (k : Cipher) : (isaacBlock k).seeded = k.seeded :=
  (foldl_isaacRound_keeps allIndices _).1
@[simp] theorem isaacBlock_cnt (k : Cipher) : (isaacBlock k).cnt = k.cnt :=
  (foldl_isaacRound_keeps allIndices _).2.1
@[simp] theorem isaacBlock_c (k : Cipher) : (isaacBlock k).c = k.c + 1 :=
  (foldl_isaacRound_keeps allIndices _).2.2

@[simp] theorem seed_seeded (k : Cipher) (key0 key1 key2 key3 : Word) :
    (k.seed key0 key1 key2 key3).seeded = true := rfl
@[simp] theorem seed_cnt (k : Cipher) (key0 key1 key2 key3 : Word) : (k.seed key0 key1 key2 key3).cnt = 256#9 := rfl

@[simp] theorem advance_seeded (k : Cipher) : k.advance.seeded = k.seeded := by
  unfold Cipher.advance; split_ifs <;> simp

/-- Consuming a word while some are left takes it from the block at hand (R176, R181). -/
theorem advance_of_ne_zero {k : Cipher} (h : k.cnt ≠ 0#9) : k.advance = { k with cnt := k.cnt - 1#9 } := by
  simp [Cipher.advance, h]

/-- Consuming a word when none is left generates a block first (R177, R181). -/
theorem advance_of_zero {k : Cipher} (h : k.cnt = 0#9) : k.advance = { isaacBlock k with cnt := 255#9 } := by
  simp [Cipher.advance, h]

/-! ### One round, and the two passes -/

/-- One round of the loop of R174: what it leaves in each word and register. -/
theorem isaacRound_get (k : Cipher) (i j : BitVec 8) :
    WordArray.get (isaacRound k i).mem j =
      (if j = i then WordArray.get k.mem ((WordArray.get k.mem i).extractLsb' 2 8) + (isaacRound k i).a + k.b
       else WordArray.get k.mem j) ∧
    WordArray.get (isaacRound k i).rsl j = (if j = i then (isaacRound k i).b else WordArray.get k.rsl j) :=
  ⟨get_put .., get_put ..⟩

/-- The eight working words, in order. -/
def Mix.words (m : Mix) : List Word := [m.a, m.b, m.c, m.d, m.e, m.f, m.g, m.h]

/-- What storing a block leaves in each word: the block's own eight words, and the others untouched. -/
theorem get_storeBlock (m : Mix) (dst : WordArray) {j n : Nat} (hj : j < 32) (hn : n < 256) :
    WordArray.get (m.storeBlock dst (BitVec.ofNat 8 (8 * j))) (BitVec.ofNat 8 n)
      = if n / 8 = j then m.words.getD (n % 8) 0#32 else WordArray.get dst (BitVec.ofNat 8 n) := by
  have inj : ∀ i, i < 8 → (BitVec.ofNat 8 n = BitVec.ofNat 8 (8 * j) + BitVec.ofNat 8 i ↔ n = 8 * j + i) := by
    intro i hi
    rw [← BitVec.toNat_inj]
    simp only [BitVec.toNat_ofNat, BitVec.toNat_add]
    omega
  have i0 := inj 0 (by omega)
  have i1 := inj 1 (by omega)
  have i2 := inj 2 (by omega)
  have i3 := inj 3 (by omega)
  have i4 := inj 4 (by omega)
  have i5 := inj 5 (by omega)
  have i6 := inj 6 (by omega)
  have i7 := inj 7 (by omega)
  simp only [BitVec.add_zero, Nat.add_zero] at i0 i1 i2 i3 i4 i5 i6 i7
  simp only [Mix.storeBlock, get_put, BitVec.ofNat_eq_ofNat, i0, i1, i2, i3, i4, i5, i6, i7]
  by_cases h : n / 8 = j
  · rw [if_pos h]
    obtain ⟨i, hi, rfl⟩ : ∃ i, i < 8 ∧ n = 8 * j + i := ⟨n % 8, by omega, by omega⟩
    have e : (8 * j + i) % 8 = i := by omega
    rw [e]
    interval_cases i <;> simp [Mix.words]
  · rw [if_neg h]
    iterate 8 rw [if_neg (by omega)]

/-- The words of a block of eight that `addBlock` reads are all it depends on. -/
theorem addBlock_congr (m : Mix) {src src' : WordArray} {j : Nat}
    (h : ∀ n, 8 * j ≤ n → n < 8 * j + 8 →
      WordArray.get src (BitVec.ofNat 8 n) = WordArray.get src' (BitVec.ofNat 8 n)) :
    m.addBlock src (BitVec.ofNat 8 (8 * j)) = m.addBlock src' (BitVec.ofNat 8 (8 * j)) := by
  have e : ∀ i, i < 8 → WordArray.get src (BitVec.ofNat 8 (8 * j) + BitVec.ofNat 8 i)
      = WordArray.get src' (BitVec.ofNat 8 (8 * j) + BitVec.ofNat 8 i) := by
    intro i hi
    rw [← BitVec.ofNat_add]
    exact h _ (by omega) (by omega)
  have e0 := e 0 (by omega)
  rw [BitVec.add_zero] at e0
  unfold Mix.addBlock
  congr 1
  exacts [congrArg _ e0, congrArg _ (e 1 (by omega)), congrArg _ (e 2 (by omega)), congrArg _ (e 3 (by omega)),
    congrArg _ (e 4 (by omega)), congrArg _ (e 5 (by omega)), congrArg _ (e 6 (by omega)), congrArg _ (e 7 (by omega))]

/-- The working words of a pass over the words `src` (R173), after its first `j` blocks. -/
def passMix (src : WordArray) (m : Mix) : Nat → Mix
  | 0 => m
  | j + 1 => mix ((passMix src m j).addBlock src (BitVec.ofNat 8 (8 * j)))

/-- The first `k` blocks of a pass that takes its words from `src` of the array as it then stands, where `src` answers
the words of `base` at every index not yet stored to. -/
theorem foldl_pass (src : WordArray → WordArray) (m : Mix) (dst base : WordArray) (k : Nat) (hk : k ≤ 32)
    (hsrc : ∀ d j, j < 32 →
      (∀ n, 8 * j ≤ n → n < 256 → WordArray.get d (BitVec.ofNat 8 n) = WordArray.get dst (BitVec.ofNat 8 n)) →
      ∀ n, 8 * j ≤ n → n < 256 →
        WordArray.get (src d) (BitVec.ofNat 8 n) = WordArray.get base (BitVec.ofNat 8 n)) :
    let r := ((List.range k).map fun j => BitVec.ofNat 8 (8 * j)).foldl
      (fun x i => let m := mix (x.1.addBlock (src x.2) i); (m, m.storeBlock x.2 i)) (m, dst)
    r.1 = passMix base m k ∧ ∀ n, n < 256 → WordArray.get r.2 (BitVec.ofNat 8 n) =
      if n < 8 * k then (passMix base m (n / 8 + 1)).words.getD (n % 8) 0#32
      else WordArray.get dst (BitVec.ofNat 8 n) := by
  induction k with
  | zero => exact ⟨rfl, fun n _ => by simp⟩
  | succ k ih =>
    obtain ⟨h1, h2⟩ := ih (by omega)
    simp only [List.range_succ, List.map_append, List.map_cons, List.map_nil, List.foldl_append, List.foldl_cons,
      List.foldl_nil]
    set r := ((List.range k).map fun j => BitVec.ofNat 8 (8 * j)).foldl
      (fun x i => let m := mix (x.1.addBlock (src x.2) i); (m, m.storeBlock x.2 i)) (m, dst) with hr
    have hmix : mix (r.1.addBlock (src r.2) (BitVec.ofNat 8 (8 * k))) = passMix base m (k + 1) := by
      rw [h1, passMix, addBlock_congr (src := src r.2) (src' := base) _]
      intro n hn hn'
      exact hsrc r.2 k (by omega) (fun i hi hi' => by rw [h2 i hi', if_neg (by omega)]) n hn (by omega)
    refine ⟨hmix, fun n hn => ?_⟩
    rw [get_storeBlock _ _ (by omega) hn, hmix]
    split_ifs with a b b
    · rw [a]
    · omega
    · rw [h2 n hn, if_pos (by omega)]
    · rw [h2 n hn, if_neg (by omega)]

/-- R173's pass 1, whole. -/
theorem seedPass_spec (rsl : WordArray) (m : Mix) (dst : WordArray) :
    (seedPass rsl m dst).1 = passMix rsl m 32 ∧ ∀ n, n < 256 →
      WordArray.get (seedPass rsl m dst).2 (BitVec.ofNat 8 n)
        = (passMix rsl m (n / 8 + 1)).words.getD (n % 8) 0#32 := by
  obtain ⟨h1, h2⟩ := foldl_pass (fun _ => rsl) m dst rsl 32 (by omega) (fun _ _ _ _ _ _ _ => rfl)
  exact ⟨h1, fun n hn => (h2 n hn).trans (if_pos (by omega))⟩

/-- R173's pass 2, whole: it reads each word before it stores to it. -/
theorem memPass_spec (m : Mix) (mem : WordArray) :
    (memPass m mem).1 = passMix mem m 32 ∧ ∀ n, n < 256 →
      WordArray.get (memPass m mem).2 (BitVec.ofNat 8 n)
        = (passMix mem m (n / 8 + 1)).words.getD (n % 8) 0#32 := by
  obtain ⟨h1, h2⟩ := foldl_pass (fun d => d) m mem mem 32 (by omega) (fun _ _ _ h n hn hn' => h n hn hn')
  exact ⟨h1, fun n hn => (h2 n hn).trans (if_pos (by omega))⟩

end Sys2Proof.Machine
end

