-- ==== Sys2Proof/Laws/Exec.lean ====
section
/-! SUPPORT. Every command in one shape: its checks in order, and the state its effect completes in. -/

namespace Sys2Proof.Machine

/-- The checks a command makes after the FatalLock check, in order. -/
def checksFor (s : State) : Instr → List (Bool × ErrCode)
  | .clr _ => []
  | .setw c =>
    [s.modeCheck c .off,
     (s.din.toNat < (s.cursor c).rpos.toNat || s.params.bufSize < s.din.toNat, .illegalPosition)]
  | .rd c w _ _ ord =>
    [s.modeCheck c .off, (orderIllegal ord w, .illegalOrder),
     ((s.cursor c).wpos.toNat < (s.cursor c).rpos.toNat + Width.bytes w, .insufficientData)]
  | .wr c w _ ord =>
    [s.modeCheck c .off, (orderIllegal ord w, .illegalOrder),
     (s.params.bufSize < (s.cursor c).wpos.toNat + Width.bytes w, .bufferOverflow)]
  | .bwbegin c => [s.modeCheck c .off]
  | .wbits c n =>
    [s.modeCheck c .bitw, (bitCountIllegal n, .illegalBitCount),
     (8 * s.params.bufSize < (s.cursor c).bitpos.toNat + n, .bufferOverflow)]
  | .bwend c => [s.modeCheck c .bitw]
  | .brbegin c => [s.modeCheck c .off]
  | .rbits c n =>
    [s.modeCheck c .bitr, (bitCountIllegal n, .illegalBitCount),
     (8 * (s.cursor c).wpos.toNat < (s.cursor c).bitpos.toNat + n, .insufficientData)]
  | .brend c => [s.modeCheck c .bitr]
  | .cseed k => [((s.cipher k).seeded, .cipherReseed)]
  | .cnext k | .cdec k | .cenc k => [(!(s.cipher k).seeded, .cipherUninitialized)]

/-- The end of the buffer bytes a command's effect must find in the buffer; 0 where its checks already see to it. -/
def reachOf (s : State) : Instr → Nat
  | .rd c w _ _ _ => (s.cursor c).rpos.toNat + Width.bytes w
  | .bwend c => if padLength (s.cursor c).bitpos.toNat = 0 then 0 else ceil8 (s.cursor c).bitpos.toNat
  | .rbits c n => ceil8 ((s.cursor c).bitpos.toNat + n)
  | .clr _ | .setw _ | .wr _ _ _ _ | .bwbegin _ | .wbits _ _ | .brbegin _ | .brend _ | .cseed _ | .cnext _ | .cdec _
  | .cenc _ => 0

/-- The state a command's effect makes of a state in which none of its checks applies, before it completes. -/
def effectOf (s : State) : Instr → State
  | .clr c => s.setCursor c { s.cursor c with rpos := 0#13, wpos := 0#13, bitpos := 0#16, mode := .off }
  | .setw c => s.setCursor c { s.cursor c with wpos := s.din.setWidth 13 }
  | .rd c w signed enc ord =>
    { s.setCursor c { s.cursor c with rpos := BitVec.ofNat 13 ((s.cursor c).rpos.toNat + Width.bytes w) } with
      dout := extend signed w (assemble w enc ord (s.readBytes c (s.cursor c).rpos.toNat (Width.bytes w))) }
  | .wr c w enc ord =>
    let s' := s.writeBytes c (s.cursor c).wpos.toNat (disassemble w enc ord s.din)
    s'.setCursor c { s'.cursor c with wpos := BitVec.ofNat 13 ((s.cursor c).wpos.toNat + Width.bytes w) }
  | .bwbegin c =>
    s.setCursor c { s.cursor c with bitpos := BitVec.ofNat 16 (8 * (s.cursor c).wpos.toNat), mode := .bitw }
  | .wbits c n =>
    let s' := s.writeBits c (s.cursor c).bitpos.toNat n s.din
    s'.setCursor c { s'.cursor c with bitpos := BitVec.ofNat 16 ((s.cursor c).bitpos.toNat + n) }
  | .bwend c =>
    let s' := s.writeBits c (s.cursor c).bitpos.toNat (padLength (s.cursor c).bitpos.toNat) 0#64
    s'.setCursor c
      { s'.cursor c with wpos := BitVec.ofNat 13 (ceil8 (s.cursor c).bitpos.toNat), mode := .off }
  | .brbegin c =>
    s.setCursor c { s.cursor c with bitpos := BitVec.ofNat 16 (8 * (s.cursor c).rpos.toNat), mode := .bitr }
  | .rbits c n =>
    { s.setCursor c { s.cursor c with bitpos := BitVec.ofNat 16 ((s.cursor c).bitpos.toNat + n) } with
      dout := s.readBits c (s.cursor c).bitpos.toNat n }
  | .brend c =>
    s.setCursor c
      { s.cursor c with rpos := BitVec.ofNat 13 (ceil8 (s.cursor c).bitpos.toNat), mode := .off }
  | .cseed k => s.setCipher k ((s.cipher k).seed s.key0 s.key1 s.key2 s.key3)
  | .cnext k => { s.setCipher k (s.cipher k).advance with dout := (s.cipher k).nextByte.setWidth 64 }
  | .cdec k =>
    { s.setCipher k (s.cipher k).advance with dout := (s.din.setWidth 8 - (s.cipher k).nextByte).setWidth 64 }
  | .cenc k =>
    { s.setCipher k (s.cipher k).advance with dout := (s.din.setWidth 8 + (s.cipher k).nextByte).setWidth 64 }

/-- Every meaning has the one shape. -/
theorem exec_eq (i : Instr) (s : State) :
    exec i s = command i (checksFor s i) s (withinBuffer s (reachOf s i) (effectOf s i)) := by
  cases i <;> rfl

/-- All that a command can do. A later proof splits on these four cases and unfolds no meaning. -/
theorem exec_cases (i : Instr) (s : State) :
    (s.fatal = true ∧ exec i s = .next (s.raise .fatalLock (encode i))) ∨
    (s.fatal = false ∧ ∃ e, firstError (checksFor s i) = some e ∧ exec i s = .next (s.raise e (encode i))) ∨
    (s.fatal = false ∧ firstError (checksFor s i) = none ∧ reachOf s i ≤ s.params.bufSize ∧
      exec i s = .next (effectOf s i).complete) ∨
    (s.fatal = false ∧ firstError (checksFor s i) = none ∧ s.params.bufSize < reachOf s i ∧
      exec i s = .fault .noSuchByte) := by
  rw [exec_eq]
  rcases command_cases i (checksFor s i) s (withinBuffer s (reachOf s i) (effectOf s i)) with
    h | h | ⟨hf, he, h⟩
  · exact Or.inl h
  · exact Or.inr (Or.inl h)
  · rcases withinBuffer_cases s (reachOf s i) (effectOf s i) with ⟨hr, hw⟩ | ⟨hr, hw⟩
    · exact Or.inr (Or.inr (Or.inl ⟨hf, he, hr, h.trans hw⟩))
    · exact Or.inr (Or.inr (Or.inr ⟨hf, he, hr, h.trans hw⟩))

/-- What a command that answers a next state did. -/
theorem exec_next_cases {i : Instr} {s t : State} (h : exec i s = .next t) :
    (s.fatal = true ∧ t = s.raise .fatalLock (encode i)) ∨
    (s.fatal = false ∧ ∃ e, firstError (checksFor s i) = some e ∧ t = s.raise e (encode i)) ∨
    (s.fatal = false ∧ firstError (checksFor s i) = none ∧ reachOf s i ≤ s.params.bufSize ∧
      t = (effectOf s i).complete) := by
  rcases exec_cases i s with ⟨hf, he⟩ | ⟨hf, e, hc, he⟩ | ⟨hf, hc, hr, he⟩ | ⟨-, -, -, he⟩ <;> rw [he] at h
  · exact Or.inl ⟨hf, (Host.Outcome.next.inj h).symm⟩
  · exact Or.inr (Or.inl ⟨hf, e, hc, (Host.Outcome.next.inj h).symm⟩)
  · exact Or.inr (Or.inr ⟨hf, hc, hr, (Host.Outcome.next.inj h).symm⟩)
  · cases h

/-- A command whose checks all pass, and whose bytes are in the buffer, completes with its effect. -/
theorem exec_completes {i : Instr} {s : State} (hf : s.fatal = false) (hc : firstError (checksFor s i) = none)
    (hr : reachOf s i ≤ s.params.bufSize) : exec i s = .next (effectOf s i).complete := by
  rw [exec_eq, command_effect i _ hf hc, withinBuffer_next _ hr]

/-- No command's effect touches the lock or the capacity. -/
theorem effectOf_keeps (s : State) (i : Instr) :
    (effectOf s i).fatal = s.fatal ∧ (effectOf s i).params = s.params := by
  cases i
  case wr => simp only [effectOf]; rw [writeBytes_eq_setCursor]; simp
  case wbits => simp only [effectOf]; rw [writeBits_eq_setCursor]; simp
  case bwend => simp only [effectOf]; rw [writeBits_eq_setCursor]; simp
  all_goals simp [effectOf]

/-- Byte `p` of buffer `c` is none of those the instruction stores to: `WR`'s stream, and the bytes that hold a bit of
`WBITS`'s field or of `BWEND`'s pad. -/
def sparesByte (s : State) (c : CursorId) (p : Nat) : Instr → Prop
  | .wr c' w enc ord => c = c' →
    p < (s.cursor c').wpos.toNat ∨ (s.cursor c').wpos.toNat + (disassemble w enc ord s.din).length ≤ p
  | .wbits c' n => c = c' → 8 * p + 8 ≤ (s.cursor c').bitpos.toNat ∨ (s.cursor c').bitpos.toNat + n ≤ 8 * p
  | .bwend c' => c = c' →
    8 * p + 8 ≤ (s.cursor c').bitpos.toNat ∨
      (s.cursor c').bitpos.toNat + padLength (s.cursor c').bitpos.toNat ≤ 8 * p
  | .clr _ | .setw _ | .rd _ _ _ _ _ | .bwbegin _ | .brbegin _ | .rbits _ _ | .brend _ | .cseed _ | .cnext _ | .cdec _
  | .cenc _ => True

/-- A command's effect keeps every buffer byte it does not store to. -/
theorem byteAt_effectOf (s : State) (i : Instr) (c : CursorId) (p : Nat) (h : sparesByte s c p i) :
    (effectOf s i).byteAt c p = s.byteAt c p := by
  cases i
  case wr c' w enc ord =>
    simp only [effectOf]
    rw [byteAt_setCursor_sameBuf (h := by rfl)]
    by_cases hc : c = c'
    · subst hc
      have := h rfl
      rw [byteAt_writeBytes, if_neg (by omega)]
    · rw [writeBytes_eq_setCursor]
      exact byteAt_congr (congrArg Cursor.buf (setCursor_cursor_other s _ hc)) rfl p
  case wbits c' n =>
    simp only [effectOf]
    rw [byteAt_setCursor_sameBuf (h := by rfl)]
    by_cases hc : c = c'
    · subst hc
      exact byteAt_writeBits_outside _ _ _ _ _ _ (h rfl)
    · rw [writeBits_eq_setCursor]
      exact byteAt_congr (congrArg Cursor.buf (setCursor_cursor_other s _ hc)) rfl p
  case bwend c' =>
    simp only [effectOf]
    rw [byteAt_setCursor_sameBuf (h := by rfl)]
    by_cases hc : c = c'
    · subst hc
      exact byteAt_writeBits_outside _ _ _ _ _ _ (h rfl)
    · rw [writeBits_eq_setCursor]
      exact byteAt_congr (congrArg Cursor.buf (setCursor_cursor_other s _ hc)) rfl p
  case cseed k => exact byteAt_congr (by cases k <;> cases c <;> rfl) (by cases k <;> rfl) p
  case cnext k => exact byteAt_congr (by cases k <;> cases c <;> rfl) (by cases k <;> rfl) p
  case cdec k => exact byteAt_congr (by cases k <;> cases c <;> rfl) (by cases k <;> rfl) p
  case cenc k => exact byteAt_congr (by cases k <;> cases c <;> rfl) (by cases k <;> rfl) p
  all_goals exact byteAt_setCursor_sameBuf (h := by rfl) ..

end Sys2Proof.Machine
end

