-- ==== Sys2Proof/Laws/HostBus.lean ====
section
/-! SUPPORT. What a host access that issues no command can change. -/

namespace Sys2Proof.Machine

/-- A host read changes the model's own record of the bus, and nothing of the KCB (R62). -/
theorem busRead_frame (s : State) (size : BusSize) (addr : BusAddr) :
    s.busRead size addr =
      { s with answers := (s.busRead size addr).answers, busyReads := (s.busRead size addr).busyReads } := by
  unfold State.busRead; dsimp only; split_ifs <;> rfl

/-- A window write is a run of byte writes that stays inside the buffer (R55). -/
theorem windowWrite_bufferWf (s : State) (c : CursorId) (p : Nat) (bs : List Byte)
    (h : bufferWf s.params.bufSize (s.cursor c).buf) (hp : p ≤ s.params.bufSize) :
    bufferWf s.params.bufSize ((s.windowWrite c p bs).cursor c).buf :=
  writeBytes_bufferWf s c p _ h (by simp only [List.length_take]; omega)

/-- A window target is aligned and starts inside the buffer (R55). -/
theorem windowAt_inside {P : Params} {size : BusSize} {c c' : CursorId} {p p' : Nat}
    (h : windowAt P size c p = .window c' p') :
    c' = c ∧ p' = p ∧ p < P.bufSize ∧ p % BusSize.bytes size = 0 := by
  unfold windowAt at h
  split_ifs at h with h1 h2
  cases h
  exact ⟨rfl, rfl, h2, by simpa using h1⟩

/-- What `registerAt` answers is in the map, or reserved. -/
theorem registerAt_cases (a : Nat) : (a, registerAt a) ∈ registerMap ∨ registerAt a = .reserved := by
  unfold registerAt
  cases h : registerMap.lookup a with
  | none => exact Or.inr rfl
  | some t =>
    refine Or.inl ?_
    obtain ⟨l, r, hm, -⟩ := List.lookup_eq_some_iff.mp h
    simp [hm]

theorem registerAt_no_window (a : Nat) (c : CursorId) (p : Nat) : registerAt a ≠ .window c p := by
  intro h
  rcases registerAt_cases a with hm | hr
  · rw [h] at hm; simp [registerMap] at hm
  · rw [h] at hr; cases hr

theorem busTarget_window {P : Params} {size : BusSize} {addr : BusAddr} {c : CursorId} {p : Nat}
    (h : busTarget P size addr = .window c p) : p < P.bufSize := by
  unfold busTarget at h
  generalize addr.toNat = a at h
  dsimp only at h
  split_ifs at h with h1 h2 h3 h4
  · exact absurd h (registerAt_no_window _ c p)
  · obtain ⟨-, hp, h, -⟩ := windowAt_inside h; omega
  · obtain ⟨-, hp, h, -⟩ := windowAt_inside h; omega

/-- The register map, as the address decoder gives it (R52). -/
theorem busTarget_register (P : Params) {x : Nat × BusTarget} (h : x ∈ registerMap) :
    busTarget P .full (BitVec.ofNat 14 x.1) = x.2 := by
  fin_cases h <;> rfl

/-- An aligned access inside a cursor's buffer reaches its window (R50, R55). -/
theorem busTarget_of_window {P : Params} {size : BusSize} {addr : BusAddr} (c : CursorId) {p : Nat}
    (ha : addr.toNat = (match c with | .c0 => 0x1000 | .c1 => 0x2000) + p) (hal : p % BusSize.bytes size = 0)
    (hp : p < P.bufSize) (hw : p < 4096) : busTarget P size addr = .window c p := by
  unfold busTarget
  rw [ha]
  cases c <;> dsimp only
  · rw [if_neg (by omega), if_pos (by omega)]; simp [windowAt, hal, hp]
  · rw [if_neg (by omega), if_neg (by omega), if_pos (by omega)]; simp [windowAt, hal, hp]

/-- `t` differs from `s` in what the host can write, in the model's record of the bus, and in nothing else (R62). -/
def engineKept (s t : State) : Prop :=
  t.dout = s.dout ∧ t.errcmd = s.errcmd ∧ t.busy = s.busy ∧ t.err = s.err ∧ t.fatal = s.fatal ∧
  t.k0 = s.k0 ∧ t.k1 = s.k1 ∧ t.params = s.params ∧ t.resetCount = s.resetCount ∧ t.host = s.host ∧
  ∀ c, (t.cursor c).rpos = (s.cursor c).rpos ∧ (t.cursor c).wpos = (s.cursor c).wpos ∧
    (t.cursor c).bitpos = (s.cursor c).bitpos ∧ (t.cursor c).mode = (s.cursor c).mode

theorem engineKept_trans {s t u : State} (h : engineKept s t) (h' : engineKept t u) : engineKept s u := by
  obtain ⟨h1, h2, h3, h4, h5, h6, h7, h8, h9, h10, hc⟩ := h
  obtain ⟨g1, g2, g3, g4, g5, g6, g7, g8, g9, g10, gc⟩ := h'
  exact ⟨g1.trans h1, g2.trans h2, g3.trans h3, g4.trans h4, g5.trans h5, g6.trans h6, g7.trans h7, g8.trans h8,
    g9.trans h9, g10.trans h10, fun c => ⟨(gc c).1.trans (hc c).1, (gc c).2.1.trans (hc c).2.1,
    (gc c).2.2.1.trans (hc c).2.2.1, (gc c).2.2.2.trans (hc c).2.2.2⟩⟩

/-- A host access that issues no command leaves the engine alone. -/
theorem busAccess_engineKept (s : State) (a : BusAccess) : engineKept s (s.busAccess a) := by
  have self : engineKept s s := by unfold engineKept; simp
  cases a with
  | read size addr => simp only [State.busAccess]; rw [busRead_frame]; exact self
  | write addr data =>
    simp only [State.busAccess, State.busWrite]
    split_ifs
    · exact self
    · cases busTarget s.params data.size addr
      case window c p =>
        simp only [State.busStore, State.windowWrite]
        rw [writeBytes_eq_setCursor]
        refine ⟨rfl, rfl, rfl, rfl, rfl, rfl, rfl, rfl, rfl, rfl, fun c' => ?_⟩
        cases c <;> cases c' <;> exact ⟨rfl, rfl, rfl, rfl⟩
      case status => simp only [State.busStore]; split_ifs <;> exact self
      all_goals exact self

theorem busAccesses_engineKept (s : State) (l : List BusAccess) : engineKept s (s.busAccesses l) := by
  induction l generalizing s with
  | nil => unfold engineKept; simp [State.busAccesses]
  | cons a l ih => exact engineKept_trans (busAccess_engineKept s a) (ih _)

/-- An access that reaches a window is at that byte's address, aligned and inside the buffer (R55). -/
theorem busTarget_window_addr {P : Params} {size : BusSize} {addr : BusAddr} {c : CursorId} {p : Nat}
    (h : busTarget P size addr = .window c p) :
    addr.toNat = (match c with | .c0 => 0x1000 | .c1 => 0x2000) + p ∧ p < P.bufSize ∧ p < 0x1000 ∧
      p % BusSize.bytes size = 0 := by
  unfold busTarget at h
  dsimp only at h
  split_ifs at h with h1 h2 h3
  · exact absurd h (registerAt_no_window _ c p)
  · obtain ⟨hc, hp, h, hal⟩ := windowAt_inside h
    subst hc
    exact ⟨by dsimp only; omega, by omega, by omega, hp ▸ hal⟩
  · obtain ⟨hc, hp, h, hal⟩ := windowAt_inside h
    subst hc
    exact ⟨by dsimp only; omega, by omega, by omega, hp ▸ hal⟩

/-- A write that reaches no window changes no buffer byte; while `BUSY = 1` none does (R31). -/
theorem byteAt_busWrite_other {s : State} {addr : BusAddr} {data : BusData}
    (h : s.busy = true ∨ ∀ c p, busTarget s.params data.size addr ≠ .window c p) (c : CursorId) (p : Nat) :
    (s.busWrite addr data).byteAt c p = s.byteAt c p := by
  simp only [State.busWrite]
  split_ifs with hb
  · exact byteAt_congr (by cases c <;> rfl) rfl p
  · cases ht : busTarget s.params data.size addr
    case window c' p' =>
      rw [ht] at hb h
      rcases h with h | h
      · simp [h, droppedWhileBusy] at hb
      · exact absurd rfl (h c' p')
    case status => simp only [State.busStore]; split_ifs <;> exact byteAt_congr (by cases c <;> rfl) rfl p
    all_goals exact byteAt_congr (by cases c <;> rfl) rfl p

/-- What a write that reaches a window while `BUSY = 0` leaves in each buffer byte (R55). -/
theorem byteAt_busWrite_window {s : State} {addr : BusAddr} {data : BusData} {c : CursorId} {p : Nat}
    (hb : s.busy = false) (ht : busTarget s.params data.size addr = .window c p) (c' : CursorId) (q : Nat) :
    (s.busWrite addr data).byteAt c' q =
      if c' = c ∧ p ≤ q ∧ q < p + BusSize.bytes data.size ∧ q < s.params.bufSize then
        (splitBytes (BusSize.bytes data.size) (data.word.setWidth 64)).getD (q - p) 0#8
      else s.byteAt c' q := by
  have hp := (busTarget_window_addr ht).2.1
  simp only [State.busWrite, ht, hb, Bool.false_and, Bool.false_eq_true, if_false, State.busStore, State.windowWrite]
  by_cases hc : c' = c
  · subst hc
    have hl : (splitBytes (BusSize.bytes data.size) (data.word.setWidth 64)).length = BusSize.bytes data.size := by
      simp [splitBytes]
    rw [byteAt_writeBytes, List.length_take, hl]
    by_cases h : p ≤ q ∧ q < p + BusSize.bytes data.size ∧ q < s.params.bufSize
    · rw [if_pos (by omega), if_pos ⟨rfl, h⟩]
      simp only [List.getD_eq_getElem?_getD, List.getElem?_take]
      rw [if_pos (by omega)]
    · rw [if_neg (by omega), if_neg (fun e => h e.2)]
  · rw [if_neg (fun e => hc e.1), writeBytes_eq_setCursor]
    exact byteAt_congr (congrArg Cursor.buf (setCursor_cursor_other s _ hc)) rfl q

/-- The accesses made while `BUSY = 1` change no buffer byte (R31). -/
theorem byteAt_busAccesses_busy {s : State} (h : s.busy = true) (l : List BusAccess) (c : CursorId) (p : Nat) :
    (s.busAccesses l).byteAt c p = s.byteAt c p := by
  induction l generalizing s with
  | nil => rfl
  | cons a l ih =>
    refine (ih ((busAccess_engineKept s a).2.2.1.trans h)).trans ?_
    cases a with
    | read size addr => simp only [State.busAccess]; rw [busRead_frame]; exact byteAt_congr (by cases c <;> rfl) rfl p
    | write addr data => exact byteAt_busWrite_other (Or.inl h) c p

/-- An access keeps both buffers in form. -/
theorem busAccess_bufferWf {s : State} (a : BusAccess) (c : CursorId)
    (h : ∀ c, bufferWf s.params.bufSize (s.cursor c).buf) :
    bufferWf s.params.bufSize ((s.busAccess a).cursor c).buf := by
  cases a with
  | read size addr => simp only [State.busAccess]; rw [busRead_frame]; cases c; exacts [h .c0, h .c1]
  | write addr data =>
    simp only [State.busAccess, State.busWrite]
    split_ifs
    · cases c; exacts [h .c0, h .c1]
    · cases ht : busTarget s.params data.size addr
      case window c' p =>
        by_cases hc : c = c'
        · subst hc
          exact windowWrite_bufferWf s c p _ (h c) (le_of_lt (busTarget_window ht))
        · simp only [State.busStore, State.windowWrite]
          rw [writeBytes_eq_setCursor, setCursor_cursor_other _ _ hc]
          exact h c
      case status => simp only [State.busStore]; split_ifs <;> cases c <;> first | exact h .c0 | exact h .c1
      all_goals cases c <;> first | exact h .c0 | exact h .c1

end Sys2Proof.Machine
end

