-- ==== Sys2Proof/Laws/Operands.lean ====
section
/-! SUPPORT. The laws of the cursor datapath's parts: joining and splitting a value's bytes, and the lengths of the
lists an access goes through. -/

namespace Sys2Proof.Machine

/-- Bit `i` of joined bytes is bit `i mod 8` of byte `i / 8`. -/
theorem getLsbD_joinBytes (bs : List Byte) (i : Nat) :
    (joinBytes bs).getLsbD i = (decide (i < 64) && (bs.getD (i / 8) 0#8).getLsbD (i % 8)) := by
  induction bs generalizing i with
  | nil => simp [joinBytes]
  | cons b bs ih =>
    simp only [joinBytes, BitVec.getLsbD_or, BitVec.getLsbD_shiftLeft, BitVec.getLsbD_setWidth, ih]
    by_cases h : i < 8
    · have e1 : i / 8 = 0 := by omega
      have e2 : i % 8 = i := by omega
      simp [h, e1, e2]
    · obtain ⟨j, rfl⟩ : ∃ j, i = j + 8 := ⟨i - 8, by omega⟩
      have e1 : (j + 8) / 8 = j / 8 + 1 := by omega
      have e2 : (j + 8) % 8 = j % 8 := by omega
      simp only [Nat.add_sub_cancel, e1, e2, List.getD_cons_succ, BitVec.getLsbD_of_ge b (j + 8) (by omega)]
      by_cases h64 : j + 8 < 64
      · simp [h64, show j < 64 by omega]
      · simp [h64]

/-- Byte `j` of joined bytes. -/
theorem extract_joinBytes (bs : List Byte) (j : Nat) (h : j < 8) :
    (joinBytes bs).extractLsb' (8 * j) 8 = bs.getD j 0#8 := by
  refine BitVec.eq_of_getLsbD_eq fun i hi => ?_
  have e1 : (8 * j + i) / 8 = j := by omega
  have e2 : (8 * j + i) % 8 = i := by omega
  rw [BitVec.getLsbD_extractLsb', getLsbD_joinBytes, e1, e2, decide_eq_true hi,
    decide_eq_true (show 8 * j + i < 64 by omega), Bool.true_and, Bool.true_and]

/-- Joined bytes reach no further than the bytes joined. -/
theorem joinBytes_lt (bs : List Byte) (n : Nat) (h : bs.length ≤ n) :
    (joinBytes bs).toNat < 2 ^ (8 * n) := by
  refine Nat.lt_pow_two_of_testBit _ fun i hi => ?_
  rw [BitVec.testBit_toNat, getLsbD_joinBytes, List.getD_eq_default _ _ (by omega)]
  simp

@[simp] theorem splitBytes_length (n : Nat) (v : DWord) : (splitBytes n v).length = n := by simp [splitBytes]

theorem splitBytes_getD (n : Nat) (v : DWord) (j : Nat) (h : j < n) :
    (splitBytes n v).getD j 0#8 = v.extractLsb' (8 * j) 8 := by
  simp [splitBytes, h]

/-- Joining the bytes a value was split into gives the bits it was split from. -/
theorem joinBytes_splitBytes (n : Nat) (v : DWord) :
    joinBytes (splitBytes n v) = (v.setWidth (8 * n)).setWidth 64 := by
  refine BitVec.eq_of_getLsbD_eq fun i hi => ?_
  rw [getLsbD_joinBytes]
  by_cases hn : i / 8 < n
  · rw [splitBytes_getD n v _ hn]
    have e : 8 * (i / 8) + i % 8 = i := by omega
    simp [e, hi, show i < 8 * n by omega, show i % 8 < 8 by omega]
  · rw [List.getD_eq_default _ _ (by simp; omega)]
    simp [show ¬ i < 8 * n by omega]

/-- A legal order is a permutation of the value's bytes, so its list is as long as the width (R104 to R106). -/
theorem streamOrder_length {ord : ByteOrder} {w : Width} (h : orderIllegal ord w = false) :
    (streamOrder ord w).length = Width.bytes w := by
  cases ord <;> cases w <;> first | rfl | simp [orderIllegal, Width.bytes] at h

theorem disassemble_length {w : Width} (enc : OffsetEncoding) {ord : ByteOrder} (v : DWord)
    (h : orderIllegal ord w = false) : (disassemble w enc ord v).length = Width.bytes w := by
  simp [disassemble, toStream, streamOrder_length h]

end Sys2Proof.Machine
end

