-- ==== Sys2Proof/Laws/PerInstr.lean ====
section
/-! SUPPORT. Facts about the syntax of every command, one lemma for each constructor of `Instr`. -/

namespace Sys2Proof.Laws.EncodedFields

/-- The command word of an instruction has the instruction's own fields in it: packing them loses none. -/
def Statement (i : Instr) : Prop := unpack (encode i) = fieldsOf i

/-- Packing fields and taking them apart again gives the fields. -/
theorem unpack_pack (f : Fields) : unpack (pack f) = f := by
  obtain ⟨op, sel, w, s, enc, ord, n, res⟩ := f
  simp only [unpack, pack, Fields.mk.injEq]
  refine ⟨?_, ?_, ?_, ?_, ?_, ?_, ?_, ?_⟩ <;>
    · refine BitVec.eq_of_getLsbD_eq fun i hi => ?_
      interval_cases i <;> simp

theorem clr (c : CursorId) : Statement (.clr c) := unpack_pack _
theorem setw (c : CursorId) : Statement (.setw c) := unpack_pack _
theorem rd (c : CursorId) (w : Width) (signed : Bool) (enc : OffsetEncoding) (ord : ByteOrder) :
    Statement (.rd c w signed enc ord) := unpack_pack _
theorem wr (c : CursorId) (w : Width) (enc : OffsetEncoding) (ord : ByteOrder) : Statement (.wr c w enc ord) :=
  unpack_pack _
theorem bwbegin (c : CursorId) : Statement (.bwbegin c) := unpack_pack _
theorem wbits (c : CursorId) (n : Nat) : Statement (.wbits c n) := unpack_pack _
theorem bwend (c : CursorId) : Statement (.bwend c) := unpack_pack _
theorem brbegin (c : CursorId) : Statement (.brbegin c) := unpack_pack _
theorem rbits (c : CursorId) (n : Nat) : Statement (.rbits c n) := unpack_pack _
theorem brend (c : CursorId) : Statement (.brend c) := unpack_pack _
theorem cseed (k : CipherId) : Statement (.cseed k) := unpack_pack _
theorem cnext (k : CipherId) : Statement (.cnext k) := unpack_pack _
theorem cdec (k : CipherId) : Statement (.cdec k) := unpack_pack _
theorem cenc (k : CipherId) : Statement (.cenc k) := unpack_pack _

end Sys2Proof.Laws.EncodedFields
end

