-- ==== Sys2Proof/Laws/Step.lean ====
section
/-! SUPPORT. All that one step can do, said once. -/

namespace Sys2Proof.Machine

/-- A word the engine executes meets the lock, is illegal, or is the instruction it decodes to. -/
theorem runWord_cases {w : Word} {s t : State} (h : runWord w s = .next t) :
    (s.fatal = true ∧ t = s.raise .fatalLock w) ∨ (s.fatal = false ∧ t = s.raise .illegalCommand w) ∨
    ∃ i, decode w = .ok i ∧ exec i s = .next t := by
  unfold runWord at h
  split at h
  · rename_i i hd
    exact Or.inr (Or.inr ⟨i, hd, h⟩)
  · rcases illegalWord_cases w s with ⟨hf, e⟩ | ⟨hf, e⟩ <;> rw [e] at h <;> cases h
    · exact Or.inl ⟨hf, rfl⟩
    · exact Or.inr (Or.inl ⟨hf, rfl⟩)

/-- An issue that answers a next state: dropped while a command executes, or run after the accesses made meanwhile. -/
theorem issue_cases {w : Word} {during : List BusAccess} {s t : State} (h : issue w during s = .next t) :
    (s.busy = true ∧ t = State.busAccesses { s with ovr := true } during) ∨
    (s.busy = false ∧ runWord w (State.busAccesses { s with busy := true } during) = .next t) := by
  unfold issue at h
  split_ifs at h with hb
  · cases h; exact Or.inl ⟨hb, rfl⟩
  · exact Or.inr ⟨by simpa using hb, h⟩

/-- All that a step which answers a next state can have done: nothing, a reset, a host access, or an issue. -/
theorem step_cases {s t : State} (h : step s = .next t) :
    (s.host = [] ∧ t = s) ∨
    ∃ e rest, s.host = e :: rest ∧
      ((e = .rst ∧ t = State.afterReset { s with host := rest }) ∨
       (∃ a, e = .access a ∧ a.command? = none ∧ t = State.busAccess { s with host := rest } a) ∨
       (∃ a w, e = .access a ∧ a.command? = some w ∧ issue w [] { s with host := rest } = .next t) ∨
       (∃ w during, e = .issue w during ∧ issue w during { s with host := rest } = .next t)) := by
  unfold step hostStep at h
  split at h
  · rename_i hh
    cases h; exact Or.inl ⟨hh, rfl⟩
  · rename_i e rest hh
    refine Or.inr ⟨e, rest, hh, ?_⟩
    cases e with
    | rst => cases h; exact Or.inl ⟨rfl, rfl⟩
    | issue w during => exact Or.inr (Or.inr (Or.inr ⟨w, during, rfl, h⟩))
    | access a =>
      simp only [hostEvent] at h
      cases hc : a.command? with
      | none => rw [hc] at h; cases h; exact Or.inr (Or.inl ⟨a, rfl, hc, rfl⟩)
      | some w => rw [hc] at h; exact Or.inr (Or.inr (Or.inl ⟨a, w, rfl, hc, h⟩))

end Sys2Proof.Machine
end

