-- ==== Sys2Proof/Tests/Slice0.lean ====
section
/-! SUPPORT. Tests of the model against the spec's own words, examples and vectors (spec 95_test_vectors.md and the
examples of the instruction rules), and a witness for the hypotheses of each statement. -/

namespace Sys2Proof.Tests

open Sys2Proof Sys2Proof.Machine Sys2Proof.Claims

/-! ### Helpers -/

/-- Some state an outcome answers. -/
def nextOf : Result → State
  | .next s => s
  | .fault _ => State.reset
  | .refused _ => State.reset

/-- One step that issues a command word. -/
def run (w : Nat) (s : State) : State := nextOf (step (s.withFetchWord 32 w))

/-- A buffer that holds these bytes from position 0 on. -/
def holding (bs : List Byte) : Memory := (List.range bs.length).zip bs

/-- The state after reset, but for `c0` and `DIN`. -/
def withC0 (x : Cursor) (din : DWord := 0) : State := { State.reset with c0 := x, din := din }

/-- The state after reset, but for `c1` and `DIN`. -/
def withC1 (x : Cursor) (din : DWord := 0) : State := { State.reset with c1 := x, din := din }

/-- The state after reset with a buffer of 8 bytes, but for `c0` and `DIN`. -/
def small (x : Cursor) (din : DWord := 0) : State := { withC0 x din with params := ⟨8⟩ }

/-- A seeded cipher with a block of equal words, `cnt` of them left. -/
def seededCipher (x : Word) (cnt : BitVec 9) : Cipher :=
  { Cipher.reset with seeded := true, rsl := Vector.replicate 256 x, cnt := cnt }

/-- The state after reset, but for `k0` and `DIN`. -/
def withK0 (k : Cipher) (din : DWord := 0) : State := { State.reset with k0 := k, din := din }

/-! ### Well-formedness: each check refuses an ill-formed term -/

theorem test_wellFormed_wbits : Instr.wellFormed (.wbits .c0 64) = false := by decide
theorem test_wellFormed_rbits : Instr.wellFormed (.rbits .c1 64) = false := by decide
theorem test_wellFormed_largest : Instr.wellFormed (.wbits .c0 63) = true := by decide

/-! ### Decoding: words written out from the spec's encodings (R87, R120 to R125, R144 to R149, R175 to R184) -/

theorem test_decode_clr : decodeTableWord 32 0x00000010 = some (.clr .c1) := by decide
theorem test_decode_setw : decodeTableWord 32 0x00000001 = some (.setw .c0) := by decide
theorem test_decode_rd : decodeTableWord 32 0x00001922 = some (.rd .c0 .w16 false .offset .little) := by decide
theorem test_decode_rd_signed : decodeTableWord 32 0x000008C2 = some (.rd .c0 .w32 true .none .middle) := by decide
theorem test_decode_wr : decodeTableWord 32 0x00001673 = some (.wr .c1 .w64 .negative .inverseMiddle) := by decide
theorem test_decode_wr_pre : decodeTableWord 32 0x00001C33 = some (.wr .c1 .w16 .preNegativeOffset .little) := by decide
theorem test_decode_bwbegin : decodeTableWord 32 0x00000014 = some (.bwbegin .c1) := by decide
theorem test_decode_wbits : decodeTableWord 32 0x00040015 = some (.wbits .c1 32) := by decide
theorem test_decode_bwend : decodeTableWord 32 0x00000016 = some (.bwend .c1) := by decide
theorem test_decode_brbegin : decodeTableWord 32 0x00000017 = some (.brbegin .c1) := by decide
theorem test_decode_rbits : decodeTableWord 32 0x00002008 = some (.rbits .c0 1) := by decide
theorem test_decode_brend : decodeTableWord 32 0x00000019 = some (.brend .c1) := by decide
theorem test_decode_cseed : decodeTableWord 32 0x0000001A = some (.cseed .k1) := by decide
theorem test_decode_cnext : decodeTableWord 32 0x0000000B = some (.cnext .k0) := by decide
theorem test_decode_cdec : decodeTableWord 32 0x0000000C = some (.cdec .k0) := by decide
theorem test_decode_cenc : decodeTableWord 32 0x0000001D = some (.cenc .k1) := by decide

/-- V-D1's words, with the check of R80 that refuses each. -/
theorem test_decode_illegal :
    decode 0x00000702 = .error .reservedEncoding ∧ decode 0x00000083 = .error .unusedField ∧
    decode 0x00000020 = .error .unusedField ∧ decode 0x00080002 = .error .reservedBits ∧
    decode 0x0000000E = .error .reservedOp ∧ decode 0x0000000F = .error .reservedOp ∧
    decode 0x00002002 = .error .unusedField ∧ decode 0x0010001B = .error .reservedBits := by
  refine ⟨?_, ?_, ?_, ?_, ?_, ?_, ?_, ?_⟩ <;> rfl

/-! ### The cursor datapath -/

/-- L1-1, the row of 0x12. -/
theorem test_offsets :
    [OffsetEncoding.none, .offset, .negativeOffset, .postNegativeOffset, .preNegativeOffset, .inverted,
      .negative].map (offsetTransform · 0x12) = [0x12, 0x92, 0x6E, 0x6E, 0x6E, 0xEE, 0xED] := by decide

/-- V-E2, the row of PRE_NEGATIVE_OFFSET. -/
theorem test_pre_targets :
    [ByteOrder.big, .middle, .inverseMiddle, .little].map (disassemble .w32 .preNegativeOffset · 0x11223344)
      = [[0x11, 0x22, 0x33, 0x3C], [0x33, 0x44, 0x11, 0x5E], [0x22, 0x11, 0x44, 0x4D], [0x44, 0x33, 0x22, 0x6F]] := by
  decide

/-- V-O1, the 64-bit reads of the mixed orders. -/
theorem test_middle8 :
    assemble .w64 .none .middle [1, 2, 3, 4, 5, 6, 7, 8] = 0x0708050603040102 ∧
    assemble .w64 .none .inverseMiddle [1, 2, 3, 4, 5, 6, 7, 8] = 0x0201040306050807 := by decide

/-- L1-7. -/
theorem test_masks : [0, 1, 7, 8, 31].map bitMask = [0x0, 0x1, 0x7F, 0xFF, 0x7FFFFFFF] := by decide

/-! ### The byte cursor commands -/

/-- V-P4. -/
theorem test_clr : (run 0x00 (withC0 ⟨holding [1, 2], 3, 7, 60, .bitw⟩)).c0 = ⟨holding [1, 2], 0, 0, 0, .off⟩ := by
  decide

/-- V-P1: the last legal position. -/
theorem test_setw : (run 0x01 (withC0 Cursor.reset 4096)).c0.wpos = 4096 := by decide

/-- V-P1: one past it. -/
theorem test_setw_out :
    let t := run 0x01 (withC0 Cursor.reset 4097)
    t.err.code = 9 ∧ t.c0.wpos = 0 ∧ t.errcmd = 0x01 := by decide

/-- R123's example (L1-5): 3214 as `short(OFFSET,LITTLE)`. -/
theorem test_rd :
    let t := run 0x1922 (withC0 ⟨holding [0x0E, 0x0C], 0, 2, 0, .off⟩)
    t.dout = 3214 ∧ t.c0.rpos = 2 := by decide

/-- V-X1, the last row: the transform comes before the sign extension. -/
theorem test_rd_signed :
    (run 0x182 (withC0 ⟨holding [0x00], 0, 1, 0, .off⟩)).dout = 0xFFFFFFFFFFFFFF80 := by decide

/-- V-E1, the row of PRE_NEGATIVE_OFFSET under LITTLE. -/
theorem test_wr :
    let t := run 0x1C33 (withC1 Cursor.reset 0x1234)
    t.c1.buf = [(0, 0x34), (1, 0x6E)] ∧ t.c1.wpos = 2 ∧ t.err.code = 0 := by decide

/-- V-P2: no room. -/
theorem test_wr_overflow :
    let t := run 0x23 (small ⟨[], 0, 7, 0, .off⟩ 0xABCD)
    t.err.code = 6 ∧ t.c0.wpos = 7 ∧ t.c0.buf = [] := by decide

/-! ### The bit cursor commands -/

/-- R144's example. -/
theorem test_bwbegin :
    (run 0x14 (withC1 ⟨[], 0, 3, 0, .off⟩)).c1 = ⟨[], 0, 3, 24, .bitw⟩ := by decide

/-- V-B3: only the field's three bits change. -/
theorem test_wbits :
    let t := run 0x6005 (withC0 ⟨holding [0xFF], 0, 0, 0, .bitw⟩)
    t.c0.buf = [(0, 0x1F)] ∧ t.c0.bitpos = 3 := by decide

/-- V-D2: a count of 33. -/
theorem test_wbits_count : (run 0x42005 (withC0 ⟨[], 0, 0, 0, .bitw⟩)).err.code = 4 := by decide

/-- V-B3: the pad. -/
theorem test_bwend :
    let t := run 0x06 (withC0 ⟨holding [0x1F], 0, 0, 3, .bitw⟩)
    t.c0.buf = [(0, 0x00)] ∧ t.c0.wpos = 1 ∧ t.c0.mode = .off ∧ t.c0.bitpos = 3 := by decide

/-- R147's example. -/
theorem test_brbegin :
    (run 0x07 (withC0 ⟨[], 2, 4, 0, .off⟩)).c0 = ⟨[], 2, 4, 16, .bitr⟩ := by decide

/-- V-B8: a 32-bit field across five bytes. -/
theorem test_rbits :
    let t := run 0x40008 (withC0 ⟨holding [0x12, 0x34, 0x56, 0x78, 0x9A], 0, 5, 4, .bitr⟩)
    t.dout = 0x23456789 ∧ t.c0.bitpos = 36 := by decide

/-- V-B1: too few bits left. -/
theorem test_rbits_short :
    let t := run 0x10018 (withC1 ⟨[], 0, 7, 53, .bitr⟩)
    t.err.code = 1 ∧ t.c1.bitpos = 53 := by decide

/-- R149's example. -/
theorem test_brend :
    let t := run 0x09 (withC0 ⟨[], 0, 2, 3, .bitr⟩)
    t.c0.rpos = 1 ∧ t.c0.mode = .off := by decide

/-! ### The cipher -/

/-- The eight words after `Init`'s four mixes of GOLDEN, which public ISAAC code lists as constants. -/
theorem test_mixStart :
    mixStart = ⟨0x1367df5a, 0x95d90059, 0xc3163e4b, 0x0f421ad8, 0xd92a4a78, 0xa51a3c49, 0xc4efea1b, 0x30609119⟩ := by
  decide

/-- One round of R174 at an index with `i mod 4 = 1`, worked out by hand from the rule: `x = 2`,
`A = (64 xor (64 >> 6)) + 7 = 72`, `Y = MEM[0] + A + B = 5 + 72 + 3 = 80`, `RSL[1] = MEM[0] + x = 7`. -/
theorem test_isaacRound :
    let m := WordArray.put (WordArray.put (WordArray.put (Vector.replicate 256 0) 0 5) 1 2) 129 7
    let t := isaacRound { Cipher.reset with mem := m, a := 64, b := 3 } 1
    t.a = 72 ∧ WordArray.get t.mem 1 = 80 ∧ t.b = 7 ∧ WordArray.get t.rsl 1 = 7 := by decide

/-- R175: the key words go to `RSL[0..3]`, and zeros to the rest. -/
theorem test_seedWords : ((seedWords 1 2 3 4).toList.take 5) = [1, 2, 3, 4, 0] := by decide

/-- V-C8: a second CSEED of an instance. -/
theorem test_cseed_reseed : (run 0x0A (withK0 (seededCipher 0 9))).err.code = 8 := by decide

/-- L1-3: raw 0x05 decodes to 0x12 where the keystream byte is 0xF3. -/
theorem test_cdec :
    let t := run 0x0C (withK0 (seededCipher 0x182600F3 256) 0x05)
    t.dout = 0x12 ∧ t.k0.cnt = 255 := by decide

/-- L1-3: opcode 0x20 encodes to 0x13. -/
theorem test_cenc : (run 0x0D (withK0 (seededCipher 0x182600F3 256) 0x20)).dout = 0x13 := by decide

/-- R182: the keystream byte, zero-extended. -/
theorem test_cnext :
    let t := run 0x0B (withK0 (seededCipher 0x182600F3 1))
    t.dout = 0xF3 ∧ t.k0.cnt = 0 := by decide

/-- R216: CNEXT of an unseeded instance locks the block. -/
theorem test_cnext_unseeded :
    let t := run 0x1B State.reset
    t.err.code = 2 ∧ t.fatal = true ∧ t.errcmd = 0x1B ∧ t.dout = 0 := by decide

/-! ### The host bus -/

/-- R27: `STATUS` with ERR 5, FATAL, SEEDED0 and MODE1 = BITR. -/
theorem test_status :
    State.statusWord
      { State.reset with err := .modeViolation, fatal := true, k0 := seededCipher 0 1, c1 := ⟨[], 0, 0, 0, .bitr⟩ }
      = 0x8550 := by decide

/-- R57: byte `j` of a window access is bits `8j+7..8j`. -/
theorem test_window_lanes :
    (State.busWrite State.reset 0x1004 (.b32 0x44332211)).c0.buf = [(4, 0x11), (5, 0x22), (6, 0x33), (7, 0x44)] := by
  decide

/-! ### Witnesses: a concrete state and operands that meet the hypotheses of each statement, at a boundary value where a
clause has a range -/

theorem witness_DecodeInvertsEncode : Instr.wellFormed (.rbits .c1 63) = true := by decide

theorem witness_EncodeInvertsDecode : decode 0x00040015 = .ok (.wbits .c1 32) := rfl

theorem witness_ReservedBitsAreIllegal :
    (0x80000000#32).extractLsb' 19 13 ≠ 0#13 ∧ (0x00080002#32).extractLsb' 19 13 ≠ 0#13 ∧
    State.reset.fatal = false := by decide

theorem witness_StepRunsTheDecodedCommand :
    ∃ s s' : State, decode 0x10 = .ok (.clr .c1) ∧
      s.host = [.issue 0x10 [.read .full 0x004]] ∧ s.busy = false ∧
      s'.host = [.access (.write 0x000 (.b32 0x10))] ∧ s'.busy = false :=
  ⟨{ State.reset with host := [.issue 0x10 [.read .full 0x004]] },
    { State.reset with host := [.access (.write 0x000 (.b32 0x10))] }, rfl, rfl, rfl, rfl, rfl⟩

theorem witness_StepRaisesIllegalCommand :
    ∃ s : State, s.host = [.issue 0xF []] ∧ s.busy = false ∧ s.fatal = false ∧ decode 0xF = .error .reservedOp :=
  ⟨{ State.reset with host := [.issue 0xF []] }, rfl, rfl, rfl, rfl⟩

theorem witness_IdleStepHoldsState : State.reset.host = [] := rfl

/-- For ResetValues, the first clause of ResetDrawIsHeld, and the reset clauses of OnlyResetUnlocks and ErrorOutputLevel. -/
theorem witness_ResetValues :
    ∃ s t : State, s.host = [.rst] ∧ s.fatal = true ∧ step s = .next t ∧ 4095 < s.params.bufSize ∧ 4095 < 4096 :=
  ⟨{ State.reset with host := [.rst], fatal := true }, _, rfl, rfl, rfl, by decide, by decide⟩

/-- The step clause of ResetDrawIsHeld, for an issued WR and for a window write: the first byte past those stored. -/
theorem witness_ResetDrawIsHeld :
    (∃ s t : State, (∀ rest, s.host ≠ .rst :: rest) ∧ step s = .next t ∧ ¬stepStores s .c0 2) ∧
    ∃ s t : State, (∀ rest, s.host ≠ .rst :: rest) ∧ step s = .next t ∧ ¬stepStores s .c0 6 := by
  refine ⟨⟨{ small Cursor.reset with host := [.issue 0x23 []] }, _, ?_, rfl, ?_⟩,
    ⟨{ small Cursor.reset with host := [.access (.write 0x1004 (.b16 0))] }, _, ?_, rfl, ?_⟩⟩
  · intro rest h; exact absurd (List.cons.inj h).1 (by decide)
  · rintro ⟨i, hi, h⟩
    cases (show decode 0x23 = .ok (.wr .c0 .w16 .none .big) from rfl).symm.trans hi
    exact absurd h (by simp only [instrStores]; decide)
  · intro rest h; exact absurd (List.cons.inj h).1 (by decide)
  · rintro (h | ⟨w, i, h, -⟩)
    · exact absurd h (by simp only [accessStores]; decide)
    · exact absurd h (by simp)

theorem witness_FatalLockStopsEveryWord : ∃ s : State, s.fatal = true := ⟨{ State.reset with fatal := true }, rfl⟩

/-- The clauses of FirstErrorIsReported: an error, none, an illegal word. -/
theorem witness_FirstErrorIsReported :
    reportedError State.reset (.cnext .k0) = some .cipherUninitialized ∧
    (reportedError State.reset (.clr .c0) = none ∧ ∃ t, exec (.clr .c0) State.reset = .next t) ∧
    decode 0xE = .error .reservedOp := ⟨rfl, ⟨rfl, _, rfl⟩, rfl⟩

/-- The two branches of CommandsCompleteInsideTheBuffer, at the last byte and one past it. -/
theorem witness_CommandsCompleteInsideTheBuffer :
    (reportedError (small ⟨[], 7, 8, 0, .off⟩) (.rd .c0 .w8 false .none .big) = none ∧
      ¬ (8 < lastByte (small ⟨[], 7, 8, 0, .off⟩) (.rd .c0 .w8 false .none .big))) ∧
    (reportedError (small ⟨[], 8, 9, 0, .off⟩) (.rd .c0 .w8 false .none .big) = none ∧
      8 < lastByte (small ⟨[], 8, 9, 0, .off⟩) (.rd .c0 .w8 false .none .big)) := by decide

theorem witness_RaisedErrorChangesNothingElse :
    ∃ t : State, runWord 0xC State.reset = .next t ∧ t.err ≠ .ok := ⟨_, rfl, by decide⟩

/-- For SuccessKeepsErrcmdAndFatal, and the success clause of ErrorOutputLevel. -/
theorem witness_SuccessKeepsErrcmdAndFatal :
    ∃ t : State, reportedError State.reset (.bwbegin .c1) = none ∧ exec (.bwbegin .c1) State.reset = .next t ∧
      t.err = .ok := ⟨_, rfl, rfl, rfl⟩

/-- For CommandsRaiseOnlyTheirCodes and CommandsKeepHostRegisters. -/
theorem witness_CommandsRaiseOnlyTheirCodes : ∃ t : State, exec (.wbits .c0 0) State.reset = .next t := ⟨_, rfl⟩

/-- The clauses of ModeTableDecides: accepted, refused, and a mode of the other cursor. -/
theorem witness_ModeTableDecides :
    cursorOf (.setw .c0) = some .c0 ∧ State.reset.fatal = false ∧
    modeAllows (.setw .c0) (State.reset.cursor .c0).mode = true ∧
    modeAllows (.setw .c0) ((withC0 ⟨[], 0, 0, 0, .bitr⟩).cursor .c0).mode = false ∧
    cursorOf (.setw .c0) ≠ some .c1 ∧ cursorOf (.cnext .k0) ≠ some .c0 := by decide

/-- The clauses of OnlyResultsWriteDout: a command that writes no result, and a result that fails. -/
theorem witness_OnlyResultsWriteDout :
    (∃ t : State, exec (.clr .c0) State.reset = .next t ∧ writesDout (.clr .c0) = false) ∧
    ∃ t : State, exec (.rbits .c0 1) State.reset = .next t ∧ t.err ≠ .ok :=
  ⟨⟨_, rfl, rfl⟩, ⟨_, rfl, by decide⟩⟩

theorem witness_CursorCommandTouchesOnlyItsCursor : cursorOf (.wr .c1 .w8 .none .big) = some .c1 := rfl

theorem witness_CipherCommandTouchesOnlyItsCipher :
    cipherOf (.cseed .k1) = some .k1 ∧ cipherOf (.cseed .k1) ≠ some .k0 ∧ cipherOf (.clr .c0) ≠ some .k0 := by decide

theorem witness_ClrResult : State.reset.fatal = false := rfl

/-- Both ends of SETW's range. -/
theorem witness_SetwResult :
    ∀ s ∈ [small ⟨[], 3, 5, 0, .off⟩ 3, small ⟨[], 3, 5, 0, .off⟩ 8],
      s.fatal = false ∧ (s.cursor .c0).mode = .off ∧ (s.cursor .c0).rpos.toNat ≤ s.din.toNat ∧
      s.din.toNat ≤ s.params.bufSize := by decide

/-- The last bytes of the buffer, all of them readable. -/
theorem witness_RdResult :
    ∃ s : State, s.fatal = false ∧ (s.cursor .c0).mode = .off ∧ orderIllegal .middle .w32 = false ∧
      (s.cursor .c0).rpos.toNat + Width.bytes .w32 ≤ (s.cursor .c0).wpos.toNat ∧
      (s.cursor .c0).rpos.toNat + Width.bytes .w32 ≤ s.params.bufSize :=
  ⟨small ⟨[], 4, 8, 0, .off⟩, by decide⟩

/-- For WrResult and WriteThenReadGivesTheValue: the last bytes of the buffer. -/
theorem witness_WrResult :
    ∃ s : State, s.fatal = false ∧ (s.cursor .c0).mode = .off ∧ orderIllegal .inverseMiddle .w64 = false ∧
      (s.cursor .c0).wpos.toNat + Width.bytes .w64 ≤ s.params.bufSize ∧
      (s.cursor .c0).wpos.toNat + Width.bytes .w64 < 2 ^ 13 :=
  ⟨small Cursor.reset, by decide⟩

/-- For AssembledBytes and DisassembledBytes: the last stream position of the largest width. -/
theorem witness_AssembledBytes :
    orderIllegal .middle .w64 = false ∧ [1, 2, 3, 4, 5, 6, 7, (8 : Byte)].length = Width.bytes .w64 ∧
    7 < Width.bytes .w64 := by decide

theorem witness_TargetByteTable : OffsetEncoding.postNegativeOffset ≠ .preNegativeOffset := by decide

theorem witness_BwbeginResult : State.reset.fatal = false ∧ (State.reset.cursor .c1).mode = .off := ⟨rfl, rfl⟩

/-- For WbitsResult and BitFieldRoundTrip: a 32-bit field, and a 1-bit field that ends the buffer. -/
theorem witness_WbitsResult :
    ∀ x ∈ [(small ⟨[], 0, 0, 32, .bitw⟩, 32), (small ⟨[], 0, 0, 63, .bitw⟩, 1)],
      x.1.fatal = false ∧ (x.1.cursor .c0).mode = .bitw ∧ 1 ≤ x.2 ∧ x.2 ≤ 32 ∧
      (x.1.cursor .c0).bitpos.toNat + x.2 ≤ 8 * x.1.params.bufSize := by decide

/-- BWEND with one bit to pad, in the last byte. -/
theorem witness_BwendResult :
    ∃ s : State, s.fatal = false ∧ (s.cursor .c0).mode = .bitw ∧
      (s.cursor .c0).bitpos.toNat ≤ 8 * s.params.bufSize ∧
      63 < 8 * (((s.cursor .c0).bitpos.toNat + 7) / 8) := ⟨small ⟨[], 0, 0, 63, .bitw⟩, by decide⟩

theorem witness_BrbeginResult : State.reset.fatal = false ∧ (State.reset.cursor .c0).mode = .off := ⟨rfl, rfl⟩

/-- A 32-bit field that ends the readable bytes and the buffer. -/
theorem witness_RbitsResult :
    ∃ s : State, s.fatal = false ∧ (s.cursor .c0).mode = .bitr ∧ 1 ≤ 32 ∧ 32 ≤ 32 ∧
      (s.cursor .c0).bitpos.toNat + 32 ≤ 8 * (s.cursor .c0).wpos.toNat ∧
      (s.cursor .c0).bitpos.toNat + 32 ≤ 8 * s.params.bufSize := ⟨small ⟨[], 0, 8, 32, .bitr⟩, by decide⟩

theorem witness_BrendResult :
    ∃ s : State, s.fatal = false ∧ (s.cursor .c0).mode = .bitr := ⟨withC0 ⟨[], 0, 2, 3, .bitr⟩, rfl, rfl⟩

theorem witness_BytewiseWriteAgrees : 1 ≤ 32 ∧ 32 ≤ 32 := by decide

/-- For CseedResult, with the last word of `MEM`, and SeedDependsOnlyOnTheKey. -/
theorem witness_CseedResult :
    State.reset.fatal = false ∧ (State.reset.cipher .k0).seeded = false ∧ (State.reset.cipher .k1).seeded = false ∧
    State.reset.key0 = State.reset.key0 ∧ 255 < 256 := ⟨rfl, rfl, rfl, rfl, by decide⟩

theorem witness_ConsumingCommandsResult :
    ∃ s : State, s.fatal = false ∧ (s.cipher .k0).seeded = true := ⟨withK0 (seededCipher 0xF3 256), rfl, rfl⟩

theorem witness_KeystreamResultsAreBytes :
    ∃ t : State, exec (.cnext .k0) (withK0 (seededCipher 0xF3 256)) = .next t ∧ t.err = .ok := ⟨_, rfl, rfl⟩

theorem witness_BlockServes256Bytes : (seededCipher 0 256).cnt = 256#9 ∧ 255 < 256 := by decide

theorem witness_DecodeUndoesEncode :
    ∃ s s' : State, s.fatal = false ∧ s'.fatal = false ∧
      s.cipher .k0 = Cipher.advance^[0] (Cipher.reset.seed 1 2 3 4) ∧
      s'.cipher .k1 = Cipher.advance^[0] (Cipher.reset.seed 1 2 3 4) :=
  ⟨State.reset.setCipher .k0 (Cipher.reset.seed 1 2 3 4), State.reset.setCipher .k1 (Cipher.reset.seed 1 2 3 4),
    rfl, rfl, rfl, rfl⟩

/-- For StepKeepsGood, GoodStatesRunForEver, StepKeepsFatalExplained and CapacityIsFixed: a good state in which a
command is pending. -/
theorem witness_StepKeepsGood :
    ∃ s t : State, s.good ∧ s.fatalExplained ∧ step s = .next t :=
  ⟨{ small ⟨[(7, 1)], 8, 8, 64, .bitw⟩ with host := [.issue 0x06 []] }, _, by decide, by decide, rfl⟩

/-- The clauses of OnlyResetUnlocks and ErrorOutputLevel that are not about a reset event. -/
theorem witness_OnlyResetUnlocks :
    ∃ s t u : State, (∀ rest, s.host ≠ .rst :: rest) ∧ s.fatal = true ∧ step s = .next t ∧
      (s.cipher .k0).seeded = true ∧ exec (.cseed .k0) s = .next u :=
  ⟨{ withK0 (seededCipher 0 1) with fatal := true, host := [.issue 0x0B []] }, _, _,
    by intro rest h; exact absurd (List.cons.inj h).1 (by decide), rfl, rfl, rfl, rfl⟩

/-- For StatusRegister, RegisterMapReads, with the last reserved offset, and RegisterMapWrites. -/
theorem witness_RegisterMapReads :
    State.reset.busy = false ∧ (0xFFC#14).toNat < 0x1000 ∧ (0xFFC#14).toNat % 4 = 0 ∧
    ∀ p ∈ registerReads State.reset, p.1 ≠ 0xFFC#14 := by
  refine ⟨rfl, by decide, by decide, ?_⟩
  simp [registerReads]

/-- A register that RegisterMapReads reads while `BUSY = 1`. -/
theorem witness_RegisterMapReads_busy :
    ∃ s : State, s.busy = true ∧ (0x02C#14, s.key3) ∈ registerReads s ∧ 0x02C#14 ∉ unspecifiedOffsets :=
  ⟨{ State.reset with busy := true }, rfl, by simp [registerReads], by decide⟩

/-- The clauses of ReservedAndBadAccesses: past the windows, a sub-word and a misaligned register access, the first and
the last reserved register offsets, a misaligned window access, and a window offset past a small buffer. -/
theorem witness_ReservedAndBadAccesses :
    0x3000 ≤ (0x3000#14).toNat ∧
    ((0x010#14).toNat < 0x1000 ∧ (BusData.b8 0).size ≠ .full) ∧
    ((0x012#14).toNat < 0x1000 ∧ (0x012#14).toNat % 4 ≠ 0) ∧
    (∀ a ∈ [0x00C#14, 0xFFC#14], a.toNat < 0x1000 ∧ ∀ p ∈ registerReads State.reset, p.1 ≠ a) ∧
    (0x1000 ≤ (0x2FFF#14).toNat ∧ (0x2FFF#14).toNat < 0x3000 ∧
      (0x2FFF#14).toNat % BusSize.bytes (BusData.b16 0).size ≠ 0) ∧
    (0x1000 ≤ (0x1008#14).toNat ∧ (small Cursor.reset).params.bufSize ≤ (0x1008#14).toNat % 0x1000) := by
  refine ⟨by decide, by decide, by decide, by simp [registerReads], by decide, by decide⟩

/-- The last word of the window, and a word that begins in a buffer of 10 bytes and ends past it. -/
theorem witness_WindowWriteThenRead :
    (State.reset.busy = false ∧ 4092 % BusSize.bytes (BusData.b32 0).size = 0 ∧
      4092 + BusSize.bytes (BusData.b32 0).size ≤ State.reset.params.bufSize ∧ 4092 < 4096) ∧
    ∃ s : State, s.busy = false ∧ 8 % BusSize.bytes (BusData.b32 0).size = 0 ∧ 8 < s.params.bufSize ∧ 8 < 4096 ∧
      s.params.bufSize < 8 + BusSize.bytes (BusData.b32 0).size :=
  ⟨by decide, { State.reset with params := ⟨10⟩ }, by decide⟩

theorem witness_BusyWritesAreDropped :
    ∃ s : State, s.busy = true ∧ 4094 % BusSize.bytes (BusData.b16 0).size = 0 ∧ 4094 < s.params.bufSize ∧
      4094 < 4096 := ⟨{ State.reset with busy := true }, by decide⟩

theorem witness_BusyReadsAreFree :
    ∃ s : State, s.busy = true ∧ 0x058#14 ∈ unspecifiedOffsets ∧ 4092 % BusSize.bytes .full = 0 ∧
      4092 < s.params.bufSize ∧ 4092 < 4096 := ⟨{ State.reset with busy := true }, by decide⟩

/-- The step clause of BusAccessSideEffects, for a read, and for a write to `CMD` that is too narrow to issue. -/
theorem witness_BusAccessSideEffects :
    ∀ a ∈ [BusAccess.read .byte 0x018, .write 0x000 (.b8 0)],
      ∃ s : State, s.host = [.access a] ∧ ∀ w, a ≠ .write 0x000 (.b32 w) :=
  fun a ha => ⟨{ State.reset with host := [.access a] }, rfl, fun w h => by subst h; simp at ha⟩

end Sys2Proof.Tests
end

/-! What a command's effect is made of, the registers no command writes, and the code that explains `FATAL`. -/

namespace Sys2Proof.Machine

open Sys2Proof.Claims

/-! ### What a command's effect is made of -/

/-- `WR` changes its own cursor alone: the buffer, and `WPOS`. -/
theorem effectOf_wr (s : State) (c : CursorId) (w : Width) (enc : OffsetEncoding) (ord : ByteOrder) :
    effectOf s (.wr c w enc ord) = s.setCursor c
      { s.cursor c with
        buf := ((s.writeBytes c (s.cursor c).wpos.toNat (disassemble w enc ord s.din)).cursor c).buf
        wpos := BitVec.ofNat 13 ((s.cursor c).wpos.toNat + Width.bytes w) } := by
  simp only [effectOf]
  rw [writeBytes_eq_setCursor]
  simp

/-- `WBITS` changes its own cursor alone: the buffer, and `BITPOS`. -/
theorem effectOf_wbits (s : State) (c : CursorId) (n : Nat) :
    effectOf s (.wbits c n) = s.setCursor c
      { s.cursor c with
        buf := ((s.writeBits c (s.cursor c).bitpos.toNat n s.din).cursor c).buf
        bitpos := BitVec.ofNat 16 ((s.cursor c).bitpos.toNat + n) } := by
  simp only [effectOf]
  rw [writeBits_eq_setCursor]
  simp

/-- `BWEND` changes its own cursor alone: the buffer, `WPOS` and the mode. -/
theorem effectOf_bwend (s : State) (c : CursorId) :
    effectOf s (.bwend c) = s.setCursor c
      { s.cursor c with
        buf := ((s.writeBits c (s.cursor c).bitpos.toNat (padLength (s.cursor c).bitpos.toNat) 0#64).cursor c).buf
        wpos := BitVec.ofNat 13 (ceil8 (s.cursor c).bitpos.toNat)
        mode := .off } := by
  simp only [effectOf]
  rw [writeBits_eq_setCursor]
  simp

/-- A command's effect changes `DOUT`, the cursors and the ciphers, and nothing else. -/
theorem effectOf_frame (s : State) (i : Instr) :
    effectOf s i =
      { s with
        dout := (effectOf s i).dout
        c0 := (effectOf s i).c0
        c1 := (effectOf s i).c1
        k0 := (effectOf s i).k0
        k1 := (effectOf s i).k1 } := by
  cases i
  case wr => rw [effectOf_wr]; rfl
  case wbits => rw [effectOf_wbits]; rfl
  case bwend => rw [effectOf_bwend]; rfl
  all_goals rfl

/-- R25: the effect of a command that is none of the result commands leaves `DOUT`. -/
theorem effectOf_dout {i : Instr} (h : writesDout i = false) (s : State) : (effectOf s i).dout = s.dout := by
  cases i
  case wr => rw [effectOf_wr]; rfl
  case wbits => rw [effectOf_wbits]; rfl
  case bwend => rw [effectOf_bwend]; rfl
  case rd | rbits | cnext | cdec | cenc => cases h
  all_goals rfl

/-- A command's own checks never raise `FatalLock`: that is the check before them (R217, R218). -/
theorem firstError_checksFor_ne_fatalLock {s : State} {i : Instr} {e : ErrCode}
    (h : firstError (checksFor s i) = some e) : e ≠ .fatalLock := by
  have hm := firstError_mem h
  rintro rfl
  cases i <;> simp [checksFor, State.modeCheck] at hm

/-! ### The registers a command leaves alone -/

/-- Settles O18: an error touches none of these fields, and an effect is framed by `effectOf_frame`. -/
theorem commandsKeepHostRegisters : Obligations.CommandsKeepHostRegisters := by
  intro i s t h
  rcases exec_next_cases h with ⟨-, rfl⟩ | ⟨-, e, -, rfl⟩ | ⟨-, -, -, rfl⟩
  · simp
  · simp
  · rw [effectOf_frame]; simp

/-- Settles O19: a raised error leaves `DOUT`, and an effect completes with `ERR = 0`. -/
theorem onlyResultsWriteDout : Obligations.OnlyResultsWriteDout := by
  intro i s t h hi
  rcases exec_next_cases h with ⟨-, rfl⟩ | ⟨-, e, -, rfl⟩ | ⟨-, -, -, rfl⟩
  · rfl
  · rfl
  · rcases hi with hi | hi
    · exact effectOf_dout hi s
    · exact absurd (complete_err _) hi

/-! ### `FATAL` and the code that explains it (R30, R216, R217) -/

/-- Whatever state a command starts from, the one it answers has its `FATAL` explained: the lock is met only where
`FATAL` is set, and only `CipherUninitialized` sets it. -/
theorem runWord_fatalExplained {w : Word} {s t : State} (h : runWord w s = .next t) : t.fatalExplained := by
  rcases runWord_cases h with ⟨hf, rfl⟩ | ⟨hf, rfl⟩ | ⟨i, -, hi⟩
  · simp [State.fatalExplained, hf]
  · simp [State.fatalExplained, hf]
  · rcases exec_next_cases hi with ⟨hf, rfl⟩ | ⟨hf, e, he, rfl⟩ | ⟨hf, -, -, rfl⟩
    · simp [State.fatalExplained, hf]
    · simp [State.fatalExplained, hf, firstError_checksFor_ne_fatalLock he]
    · simp [State.fatalExplained, effectOf_keeps, hf]

/-- Host accesses that issue no command keep `ERR` and `FATAL`. -/
theorem fatalExplained_of_engineKept {s t : State} (h : engineKept s t) (hs : s.fatalExplained) :
    t.fatalExplained := by
  obtain ⟨-, -, -, herr, hfatal, -⟩ := h
  simpa [State.fatalExplained, herr, hfatal] using hs

theorem issue_fatalExplained {w : Word} {during : List BusAccess} {s t : State} (hs : s.fatalExplained)
    (h : issue w during s = .next t) : t.fatalExplained := by
  rcases issue_cases h with ⟨-, rfl⟩ | ⟨-, h⟩
  · exact fatalExplained_of_engineKept (busAccesses_engineKept { s with ovr := true } during) hs
  · exact runWord_fatalExplained h

/-- Settles O49, by the four things a step can be. -/
theorem stepKeepsFatalExplained : Obligations.StepKeepsFatalExplained := by
  intro s t hs h
  rcases step_cases h with ⟨-, rfl⟩ | ⟨e, rest, -, ⟨-, rfl⟩ | ⟨a, -, -, rfl⟩ | ⟨a, w, -, -, h⟩ | ⟨w, during, -, h⟩⟩
  · exact hs
  · simp [State.fatalExplained, State.reset]
  · exact fatalExplained_of_engineKept (busAccess_engineKept { s with host := rest } a) hs
  · exact issue_fatalExplained (s := { s with host := rest }) hs h
  · exact issue_fatalExplained (s := { s with host := rest }) hs h

end Sys2Proof.Machine

/-! The invariant of a good state: every command, host access and reset keeps it, and a step from a good state always
answers a next state. -/

namespace Sys2Proof.Machine

open Sys2Proof.Claims

/-! ### What it says of a state that a command's checks all pass -/

theorem setw_passes_iff (s : State) (c : CursorId) :
    firstError (checksFor s (.setw c)) = none ↔
      (s.cursor c).mode = .off ∧ (s.cursor c).rpos.toNat ≤ s.din.toNat ∧ s.din.toNat ≤ s.params.bufSize := by
  simp [checksFor, State.modeCheck, firstError_cons_eq_none, -firstError_cons]

theorem rd_passes_iff (s : State) (c : CursorId) (w : Width) (signed : Bool) (enc : OffsetEncoding) (ord : ByteOrder) :
    firstError (checksFor s (.rd c w signed enc ord)) = none ↔
      (s.cursor c).mode = .off ∧ orderIllegal ord w = false ∧
        (s.cursor c).rpos.toNat + Width.bytes w ≤ (s.cursor c).wpos.toNat := by
  simp [checksFor, State.modeCheck, firstError_cons_eq_none, -firstError_cons]

theorem wr_passes_iff (s : State) (c : CursorId) (w : Width) (enc : OffsetEncoding) (ord : ByteOrder) :
    firstError (checksFor s (.wr c w enc ord)) = none ↔
      (s.cursor c).mode = .off ∧ orderIllegal ord w = false ∧
        (s.cursor c).wpos.toNat + Width.bytes w ≤ s.params.bufSize := by
  simp [checksFor, State.modeCheck, firstError_cons_eq_none, -firstError_cons]

theorem wbits_passes_iff (s : State) (c : CursorId) (n : Nat) :
    firstError (checksFor s (.wbits c n)) = none ↔
      (s.cursor c).mode = .bitw ∧ bitCountIllegal n = false ∧
        (s.cursor c).bitpos.toNat + n ≤ 8 * s.params.bufSize := by
  simp [checksFor, State.modeCheck, firstError_cons_eq_none, -firstError_cons]

theorem bwend_passes_iff (s : State) (c : CursorId) :
    firstError (checksFor s (.bwend c)) = none ↔ (s.cursor c).mode = .bitw := by
  simp [checksFor, State.modeCheck, firstError_cons_eq_none, -firstError_cons]

theorem rbits_passes_iff (s : State) (c : CursorId) (n : Nat) :
    firstError (checksFor s (.rbits c n)) = none ↔
      (s.cursor c).mode = .bitr ∧ bitCountIllegal n = false ∧
        (s.cursor c).bitpos.toNat + n ≤ 8 * (s.cursor c).wpos.toNat := by
  simp [checksFor, State.modeCheck, firstError_cons_eq_none, -firstError_cons]

theorem brend_passes_iff (s : State) (c : CursorId) :
    firstError (checksFor s (.brend c)) = none ↔ (s.cursor c).mode = .bitr := by
  simp [checksFor, State.modeCheck, firstError_cons_eq_none, -firstError_cons]

/-! ### Good states (R7, R36, R38) -/

/-- R36 and the canonical form, for one cursor. -/
def cursorInForm (size : Nat) (x : Cursor) : Prop := positionsOk size x ∧ bufferWf size x.buf

/-- `State.good` without `BUSY = 0`: what also holds while a command executes. -/
def State.inForm (s : State) : Prop :=
  s.params.legal = true ∧ (∀ c, cursorInForm s.params.bufSize (s.cursor c)) ∧ ∀ k, countOk (s.cipher k)

theorem good_iff (s : State) : s.good ↔ s.busy = false ∧ s.inForm := by
  constructor
  · rintro ⟨hl, hb, hp0, hw0, hp1, hw1, hk0, hk1⟩
    refine ⟨hb, hl, fun c => ?_, fun k => ?_⟩
    · cases c
      · exact ⟨hp0, hw0⟩
      · exact ⟨hp1, hw1⟩
    · cases k
      · exact hk0
      · exact hk1
  · rintro ⟨hb, hl, hc, hk⟩
    exact ⟨hl, hb, (hc .c0).1, (hc .c0).2, (hc .c1).1, (hc .c1).2, hk .k0, hk .k1⟩

/-- A legal buffer holds at most 4096 bytes (R7), so its positions fit their registers. -/
theorem inForm_bufSize_le {s : State} (h : s.inForm) : s.params.bufSize ≤ 4096 := by
  have hl := h.1
  simp only [Params.legal, Bool.and_eq_true, decide_eq_true_eq] at hl
  exact hl.2

theorem inForm_setCursor {s : State} {c : CursorId} {x : Cursor} (h : s.inForm)
    (hx : cursorInForm s.params.bufSize x) : (s.setCursor c x).inForm := by
  obtain ⟨hl, hc, hk⟩ := h
  refine ⟨hl, fun c' => ?_, fun k => by simpa using hk k⟩
  by_cases he : c' = c
  · subst he; simpa using hx
  · rw [setCursor_cursor_other s x he]; exact hc c'

theorem inForm_setCipher {s : State} {k : CipherId} {x : Cipher} (h : s.inForm) (hx : countOk x) :
    (s.setCipher k x).inForm := by
  obtain ⟨hl, hc, hk⟩ := h
  refine ⟨hl, fun c => by simpa using hc c, fun k' => ?_⟩
  by_cases he : k' = k
  · subst he; simpa using hx
  · rw [setCipher_cipher_other s x he]; exact hk k'

theorem inForm_raise {s : State} (h : s.inForm) (e : ErrCode) (w : Word) : (s.raise e w).inForm := h

theorem inForm_complete {s : State} (h : s.inForm) : s.complete.inForm := h

/-- R38's range is kept by the state change of `NextByte`: a new block leaves 255 words. -/
theorem countOk_advance {k : Cipher} (h : countOk k) : countOk k.advance := by
  by_cases h0 : k.cnt = 0#9
  · rw [advance_of_zero h0]; simp [countOk]
  · rw [advance_of_ne_zero h0]
    simp only [countOk] at h ⊢
    bv_omega

theorem inForm_advance {s : State} (h : s.inForm) (k : CipherId) (d : DWord) :
    State.inForm { s.setCipher k (s.cipher k).advance with dout := d } :=
  inForm_setCipher (k := k) h (countOk_advance (h.2.2 k))

/-- A cursor whose mode is not a bit mode answers only for `RPOS`, `WPOS` and its buffer. -/
theorem cursorInForm_of_off {size : Nat} {x : Cursor} (hm : x.mode = .off) (hr : x.rpos.toNat ≤ x.wpos.toNat)
    (hw : x.wpos.toNat ≤ size) (hb : bufferWf size x.buf) : cursorInForm size x :=
  ⟨⟨hr, hw, by simp [hm], by simp [hm]⟩, hb⟩

theorem cursorInForm_of_bitw {size : Nat} {x : Cursor} (hm : x.mode = .bitw) (hr : x.rpos.toNat ≤ x.wpos.toNat)
    (hw : x.wpos.toNat ≤ size) (hlo : 8 * x.wpos.toNat ≤ x.bitpos.toNat) (hhi : x.bitpos.toNat ≤ 8 * size)
    (hb : bufferWf size x.buf) : cursorInForm size x :=
  ⟨⟨hr, hw, fun _ => ⟨hlo, hhi⟩, by simp [hm]⟩, hb⟩

theorem cursorInForm_of_bitr {size : Nat} {x : Cursor} (hm : x.mode = .bitr) (hr : x.rpos.toNat ≤ x.wpos.toNat)
    (hw : x.wpos.toNat ≤ size) (hlo : 8 * x.rpos.toNat ≤ x.bitpos.toNat)
    (hhi : x.bitpos.toNat ≤ 8 * x.wpos.toNat) (hb : bufferWf size x.buf) : cursorInForm size x :=
  ⟨⟨hr, hw, by simp [hm], fun _ => ⟨hlo, hhi⟩⟩, hb⟩

theorem cursorInForm_reset (size : Nat) : cursorInForm size Cursor.reset :=
  cursorInForm_of_off rfl le_rfl (Nat.zero_le _) ⟨List.Pairwise.nil, List.forall_mem_nil _⟩

theorem ceil8_eq (n : Nat) : ceil8 n = (n + 7) / 8 := by simp [ceil8, Nat.shiftRight_eq_div_pow]

/-- The pad of `BWEND` ends at the end of the byte (R146). -/
theorem add_padLength (q : Nat) : q + padLength q = 8 * ((q + 7) / 8) := by unfold padLength; omega

/-- In a state in form, a command whose checks all pass finds in the buffer every byte it touches (R36, R50). -/
theorem reachOf_le_of_inForm {s : State} {i : Instr} (h : s.inForm) (hc : firstError (checksFor s i) = none) :
    reachOf s i ≤ s.params.bufSize := by
  cases i
  case rd c w signed enc ord =>
    obtain ⟨⟨-, hw, -⟩, -⟩ := h.2.1 c
    obtain ⟨-, -, hlen⟩ := (rd_passes_iff ..).mp hc
    simp only [reachOf]
    omega
  case bwend c =>
    obtain ⟨⟨-, -, hq, -⟩, -⟩ := h.2.1 c
    have := hq ((bwend_passes_iff ..).mp hc)
    simp only [reachOf, ceil8_eq]
    split_ifs <;> omega
  case rbits c n =>
    obtain ⟨⟨-, hw, -⟩, -⟩ := h.2.1 c
    obtain ⟨-, -, hlen⟩ := (rbits_passes_iff ..).mp hc
    simp only [reachOf, ceil8_eq]
    omega
  all_goals exact Nat.zero_le _

/-- The effect of a command whose checks all pass keeps the form. -/
theorem inForm_effectOf {s : State} {i : Instr} (h : s.inForm) (hc : firstError (checksFor s i) = none) :
    (effectOf s i).inForm := by
  have hsize := inForm_bufSize_le h
  cases i
  case clr c =>
    obtain ⟨-, hb⟩ := h.2.1 c
    exact inForm_setCursor h (cursorInForm_of_off rfl le_rfl (Nat.zero_le _) hb)
  case setw c =>
    obtain ⟨-, hb⟩ := h.2.1 c
    obtain ⟨hm, hlo, hhi⟩ := (setw_passes_iff ..).mp hc
    refine inForm_setCursor h (cursorInForm_of_off hm ?_ ?_ hb) <;>
      simp only [BitVec.toNat_setWidth] <;> omega
  case rd c w signed enc ord =>
    obtain ⟨⟨hr, hw, -⟩, hb⟩ := h.2.1 c
    obtain ⟨hm, -, hlen⟩ := (rd_passes_iff ..).mp hc
    refine inForm_setCursor (c := c) h (cursorInForm_of_off hm ?_ hw hb)
    simp only [BitVec.toNat_ofNat]
    omega
  case wr c w enc ord =>
    obtain ⟨⟨hr, hw, -⟩, hb⟩ := h.2.1 c
    obtain ⟨hm, ho, hlen⟩ := (wr_passes_iff ..).mp hc
    have hb' := writeBytes_bufferWf s c (s.cursor c).wpos.toNat (disassemble w enc ord s.din) hb
      (by rw [disassemble_length enc _ ho]; exact hlen)
    rw [effectOf_wr]
    refine inForm_setCursor h (cursorInForm_of_off hm ?_ ?_ hb') <;>
      simp only [BitVec.toNat_ofNat] <;> omega
  case bwbegin c =>
    obtain ⟨⟨hr, hw, -⟩, hb⟩ := h.2.1 c
    refine inForm_setCursor h (cursorInForm_of_bitw rfl hr hw ?_ ?_ hb) <;>
      simp only [BitVec.toNat_ofNat] <;> omega
  case wbits c n =>
    obtain ⟨⟨hr, hw, hq, -⟩, hb⟩ := h.2.1 c
    obtain ⟨hm, -, hlen⟩ := (wbits_passes_iff ..).mp hc
    have hb' := writeBits_bufferWf s c (s.cursor c).bitpos.toNat n s.din hb hlen
    have := hq hm
    rw [effectOf_wbits]
    refine inForm_setCursor h (cursorInForm_of_bitw hm hr hw ?_ ?_ hb') <;>
      simp only [BitVec.toNat_ofNat] <;> omega
  case bwend c =>
    obtain ⟨⟨hr, hw, hq, -⟩, hb⟩ := h.2.1 c
    obtain ⟨hlo, hhi⟩ := hq ((bwend_passes_iff ..).mp hc)
    have hb' := writeBits_bufferWf s c (s.cursor c).bitpos.toNat (padLength (s.cursor c).bitpos.toNat) 0#64 hb
      (by rw [add_padLength]; omega)
    rw [effectOf_bwend]
    refine inForm_setCursor h (cursorInForm_of_off rfl ?_ ?_ hb') <;>
      simp only [BitVec.toNat_ofNat, ceil8_eq] <;> omega
  case brbegin c =>
    obtain ⟨⟨hr, hw, -⟩, hb⟩ := h.2.1 c
    refine inForm_setCursor h (cursorInForm_of_bitr rfl hr hw ?_ ?_ hb) <;>
      simp only [BitVec.toNat_ofNat] <;> omega
  case rbits c n =>
    obtain ⟨⟨hr, hw, -, hq⟩, hb⟩ := h.2.1 c
    obtain ⟨hm, -, hlen⟩ := (rbits_passes_iff ..).mp hc
    have := hq hm
    refine inForm_setCursor (c := c) h (cursorInForm_of_bitr hm hr hw ?_ ?_ hb) <;>
      simp only [BitVec.toNat_ofNat] <;> omega
  case brend c =>
    obtain ⟨⟨hr, hw, -, hq⟩, hb⟩ := h.2.1 c
    obtain ⟨hlo, hhi⟩ := hq ((brend_passes_iff ..).mp hc)
    refine inForm_setCursor h (cursorInForm_of_off rfl ?_ hw hb)
    simp only [BitVec.toNat_ofNat, ceil8_eq]
    omega
  case cseed k => exact inForm_setCipher h (by simp [countOk])
  case cnext k => exact inForm_advance h k _
  case cdec k => exact inForm_advance h k _
  case cenc k => exact inForm_advance h k _

/-! ### Steps from good states -/

/-- A command never stops a machine in form, and completes it with `BUSY = 0` (R28, R36). -/
theorem exec_answers_good {s : State} (h : s.inForm) (i : Instr) : ∃ t, exec i s = .next t ∧ t.good := by
  rcases exec_cases i s with ⟨-, he⟩ | ⟨-, e, -, he⟩ | ⟨-, hc, -, he⟩ | ⟨-, hc, hr, -⟩
  · exact ⟨_, he, (good_iff _).mpr ⟨rfl, inForm_raise h _ _⟩⟩
  · exact ⟨_, he, (good_iff _).mpr ⟨rfl, inForm_raise h _ _⟩⟩
  · exact ⟨_, he, (good_iff _).mpr ⟨rfl, inForm_complete (inForm_effectOf h hc)⟩⟩
  · exact absurd (reachOf_le_of_inForm h hc) (by omega)

/-- An illegal word raises its error, and a legal one is a command. -/
theorem runWord_answers_good {s : State} (h : s.inForm) (w : Word) : ∃ t, runWord w s = .next t ∧ t.good := by
  unfold runWord
  split
  · exact exec_answers_good h _
  · rcases illegalWord_cases w s with ⟨-, he⟩ | ⟨-, he⟩
    · exact ⟨_, he, (good_iff _).mpr ⟨rfl, inForm_raise h _ _⟩⟩
    · exact ⟨_, he, (good_iff _).mpr ⟨rfl, inForm_raise h _ _⟩⟩

/-- A host access that issues no command stores only inside the buffers, and moves no position. -/
theorem inForm_busAccess {s : State} (h : s.inForm) (a : BusAccess) : (s.busAccess a).inForm := by
  obtain ⟨hl, hc, hk⟩ := h
  obtain ⟨-, -, -, -, -, hk0, hk1, hparams, -, -, hpos⟩ := busAccess_engineKept s a
  refine ⟨by rwa [hparams], fun c => ?_, fun k => ?_⟩
  · obtain ⟨hr, hw, hq, hm⟩ := hpos c
    refine ⟨?_, ?_⟩
    · rw [positionsOk, hparams, hr, hw, hq, hm]; exact (hc c).1
    · rw [hparams]; exact busAccess_bufferWf a c fun c' => (hc c').2
  · cases k
    · rw [countOk, State.cipher, hk0]; exact hk .k0
    · rw [countOk, State.cipher, hk1]; exact hk .k1

theorem inForm_busAccesses {s : State} (h : s.inForm) (l : List BusAccess) : (s.busAccesses l).inForm := by
  induction l generalizing s with
  | nil => exact h
  | cons a l ih => exact ih (inForm_busAccess h a)

theorem good_busAccess {s : State} (h : s.good) (a : BusAccess) : (s.busAccess a).good := by
  obtain ⟨hb, hs⟩ := (good_iff s).mp h
  obtain ⟨-, -, hbusy, -⟩ := busAccess_engineKept s a
  exact (good_iff _).mpr ⟨hbusy.trans hb, inForm_busAccess hs a⟩

theorem issue_answers_good {s : State} (h : s.good) (w : Word) (during : List BusAccess) :
    ∃ t, issue w during s = .next t ∧ t.good := by
  obtain ⟨hb, hs⟩ := (good_iff s).mp h
  have hbusy : State.inForm { s with busy := true } := hs
  simp only [issue, hb, Bool.false_eq_true, if_false]
  exact runWord_answers_good (inForm_busAccesses hbusy during) w

theorem good_afterReset {s : State} (h : s.good) : s.afterReset.good := by
  obtain ⟨hl, -⟩ := h
  refine (good_iff _).mpr ⟨rfl, hl, fun c => ?_, fun k => ?_⟩
  · cases c <;> exact cursorInForm_reset _
  · cases k <;> exact Nat.zero_le _

theorem hostEvent_answers_good {s : State} (h : s.good) (e : HostEvent) : ∃ t, hostEvent e s = .next t ∧ t.good := by
  cases e with
  | rst => exact ⟨_, rfl, good_afterReset h⟩
  | issue w during => exact issue_answers_good h w during
  | access a =>
    simp only [hostEvent]
    split
    · exact issue_answers_good h _ []
    · exact ⟨_, rfl, good_busAccess h a⟩

/-- From a good state a step answers a next state, and a good one. -/
theorem step_answers_good {s : State} (h : s.good) : ∃ t, step s = .next t ∧ t.good := by
  unfold step hostStep
  split
  · exact ⟨s, rfl, h⟩
  · rename_i e rest _
    exact hostEvent_answers_good (s := { s with host := rest }) h e

/-- Settles O47: the one state the step answers is a good one. -/
theorem stepKeepsGood : Obligations.StepKeepsGood := by
  intro s t hs h
  obtain ⟨u, hu, hgood⟩ := step_answers_good hs
  cases hu.symm.trans h
  exact hgood

/-- Settles O48, by induction on the number of steps. -/
theorem goodStatesRunForEver : Obligations.GoodStatesRunForEver := by
  intro s hs n
  induction n generalizing s with
  | zero => rfl
  | succ n ih =>
    obtain ⟨t, ht, hgood⟩ := step_answers_good hs
    simp only [safeRun, ht]
    exact ih t hgood

/-- Settles O46: reset leaves a legal capacity, positions 0 and no error. -/
theorem resetIsGood : Obligations.ResetIsGood :=
  ⟨by decide, by decide⟩

end Sys2Proof.Machine

/-! The statements about reset, the issue of a command, the STATUS register, and host accesses while `BUSY = 1`. -/

namespace Sys2Proof.Machine

open Sys2Proof.Claims

/-! ### A step, by the host's next action -/

theorem step_rst {s : State} {rest : List HostEvent} (h : s.host = .rst :: rest) :
    step s = .next (State.afterReset { s with host := rest }) := by
  simp [step, hostStep, h, hostEvent]

/-- An issue event is `issue`, with the event taken off the host's list. -/
theorem step_issue {s : State} {w : Word} {during : List BusAccess} {rest : List HostEvent}
    (h : s.host = .issue w during :: rest) : step s = issue w during { s with host := rest } := by
  simp [step, hostStep, h, hostEvent]

/-- A 32-bit write to `CMD` issues the word written (R23). -/
theorem step_write_cmd {s : State} {w : Word} {rest : List HostEvent}
    (h : s.host = .access (.write 0x000 (.b32 w)) :: rest) : step s = issue w [] { s with host := rest } := by
  simp [step, hostStep, h, hostEvent, BusAccess.command?]

/-- An issue while `BUSY = 0` runs the instruction its word decodes to, after the accesses made meanwhile. -/
theorem issue_decoded {s : State} {w : Word} {i : Instr} (hd : decode w = .ok i) (hb : s.busy = false)
    (during : List BusAccess) :
    issue w during s = exec i (State.busAccesses { s with busy := true } during) := by
  simp [issue, hb, runWord, hd]

/-- R23: the access that issues a command is a 32-bit write to `CMD`. -/
theorem command?_eq_some_iff (a : BusAccess) (w : Word) : a.command? = some w ↔ a = .write 0x000 (.b32 w) := by
  cases a with
  | read size addr => simp [BusAccess.command?]
  | write addr data => cases data <;> simp [BusAccess.command?]

/-- Settles O6: each way to issue the word comes to `issue`, and with `BUSY = 0` that runs the decoded instruction. -/
theorem stepRunsTheDecodedCommand : Obligations.StepRunsTheDecodedCommand := by
  intro s w i hd
  refine ⟨fun during rest hh hb => ?_, fun rest hh hb => ?_, ?_⟩
  · rw [step_issue hh, issue_decoded (s := { s with host := rest }) hd hb]
  · rw [step_write_cmd hh, issue_decoded (s := { s with host := rest }) hd hb]
    rfl
  · have hw : BitVec.ofNat 32 (w.toNat % 2 ^ 32) = w := by
      rw [Nat.mod_eq_of_lt w.isLt, BitVec.ofNat_toNat, BitVec.setWidth_eq]
    rw [State.withFetchWord, hw, step_issue (s := s.withNextCommand w) rfl, issue_decoded hd rfl]
    rfl

/-! ### Reset -/

/-- Settles O9: the registers, the modes and the positions of `State.afterReset` are those of `State.reset`. -/
theorem resetValues : Obligations.ResetValues := by
  intro s rest hh
  refine ⟨_, step_rst hh, fun u hu => ?_⟩
  rcases List.mem_pair.mp hu with rfl | rfl <;>
    exact ⟨rfl, rfl, rfl, rfl, rfl, rfl, rfl, rfl, rfl, rfl, rfl, rfl, fun k => by cases k <;> rfl,
      fun c => by cases c <;> exact ⟨rfl, rfl, rfl, rfl⟩⟩

/-! ### The draw of a reset is held -/

/-- After a reset nothing is written, so each byte is the draw (R43). -/
theorem byteAt_afterReset (s : State) (c : CursorId) (p : Nat) :
    s.afterReset.byteAt c p = Config.bufDraw s.afterReset.resetCount c p := by
  cases c <;> rfl

theorem windowAddr_toNat (c : CursorId) {p : Nat} (hp : p < 4096) : (windowAddr c p).toNat = windowBase c + p := by
  cases c <;> simp only [windowAddr, windowBase, BitVec.toNat_ofNat] <;> omega

/-- An aligned access at a byte of the buffer reaches that byte's window (R50, R55). -/
theorem busTarget_windowAddr {P : Params} {size : BusSize} (c : CursorId) {p : Nat}
    (hal : p % BusSize.bytes size = 0) (hp : p < P.bufSize) (hw : p < 4096) :
    busTarget P size (windowAddr c p) = .window c p := by
  refine busTarget_of_window c ?_ hal hp hw
  rw [windowAddr_toNat c hw]
  cases c <;> rfl

/-- The data of a one-byte write is its byte. -/
theorem splitBytes_getD_zero_byte (v : Byte) :
    (splitBytes (BusSize.bytes (BusData.b8 v).size) ((BusData.b8 v).word.setWidth 64)).getD 0 0#8 = v := by
  have hv : ((v.setWidth 32).setWidth 64).extractLsb' 0 8 = v := by
    ext i hi
    simp [hi, show i < 64 by omega]
  exact (splitBytes_getD 1 _ 0 Nat.one_pos).trans hv

/-- A write of one byte inside the buffer while `BUSY = 0` changes that byte alone (R55). -/
theorem byteAt_busWrite_byte {s : State} (hb : s.busy = false) (c : CursorId) {p : Nat} (v : Byte)
    (hp : p < s.params.bufSize) (hw : p < 4096) (c' : CursorId) (q : Nat) :
    (s.busWrite (windowAddr c p) (.b8 v)).byteAt c' q = if c' = c ∧ q = p then v else s.byteAt c' q := by
  have ht : busTarget s.params (BusData.b8 v).size (windowAddr c p) = .window c p :=
    busTarget_windowAddr c (Nat.mod_one p) hp hw
  rw [byteAt_busWrite_window hb ht]
  by_cases h : c' = c ∧ q = p
  · obtain ⟨rfl, rfl⟩ := h
    rw [if_pos ⟨rfl, by simp [BusSize.bytes, BusData.size, hp]⟩, if_pos ⟨rfl, rfl⟩, Nat.sub_self]
    exact splitBytes_getD_zero_byte v
  · rw [if_neg h, if_neg]
    rintro ⟨rfl, hlo, hhi, -⟩
    simp only [BusSize.bytes, BusData.size] at hhi
    exact h ⟨rfl, by omega⟩

/-- An instruction whose checks all pass spares the bytes that `instrStores` does not name. -/
theorem sparesByte_of_not_instrStores {s : State} {i : Instr} {c : CursorId} {p : Nat}
    (hc : firstError (checksFor s i) = none) (h : ¬instrStores s i c p) : sparesByte s c p i := by
  cases i
  case wr c' w enc ord =>
    rintro rfl
    obtain ⟨-, ho, -⟩ := (wr_passes_iff ..).mp hc
    rw [disassemble_length enc _ ho]
    simp only [instrStores, true_and] at h
    omega
  case wbits c' n =>
    rintro rfl
    simp only [instrStores, true_and] at h
    omega
  case bwend c' =>
    rintro rfl
    simp only [instrStores, true_and] at h
    rw [add_padLength]
    omega
  all_goals trivial

/-- Which bytes an instruction stores to depends on the positions alone. -/
theorem instrStores_of_engineKept {s t : State} (h : engineKept s t) {i : Instr} {c : CursorId} {p : Nat}
    (hi : instrStores t i c p) : instrStores s i c p := by
  obtain ⟨-, -, -, -, -, -, -, -, -, -, hpos⟩ := h
  cases i
  case wr c' w enc ord =>
    obtain ⟨-, hw, -⟩ := hpos c'
    simpa only [instrStores, hw] using hi
  case wbits c' n =>
    obtain ⟨-, -, hq, -⟩ := hpos c'
    simpa only [instrStores, hq] using hi
  case bwend c' =>
    obtain ⟨-, -, hq, -⟩ := hpos c'
    simpa only [instrStores, hq] using hi
  all_goals exact hi

theorem exec_byteAt {i : Instr} {s t : State} (h : exec i s = .next t) {c : CursorId} {p : Nat}
    (hs : ¬instrStores s i c p) : t.byteAt c p = s.byteAt c p := by
  rcases exec_next_cases h with ⟨-, rfl⟩ | ⟨-, e, -, rfl⟩ | ⟨-, hc, -, rfl⟩
  · rw [byteAt_raise]
  · rw [byteAt_raise]
  · rw [byteAt_complete, byteAt_effectOf s i c p (sparesByte_of_not_instrStores hc hs)]

theorem exec_resetCount {i : Instr} {s t : State} (h : exec i s = .next t) : t.resetCount = s.resetCount := by
  obtain ⟨-, -, -, -, -, -, -, hr, -⟩ := commandsKeepHostRegisters i s t h
  exact hr

theorem runWord_resetCount {w : Word} {s t : State} (h : runWord w s = .next t) : t.resetCount = s.resetCount := by
  rcases runWord_cases h with ⟨-, rfl⟩ | ⟨-, rfl⟩ | ⟨i, -, hi⟩
  · rfl
  · rfl
  · exact exec_resetCount hi

theorem runWord_byteAt {w : Word} {s t : State} (h : runWord w s = .next t) {c : CursorId} {p : Nat}
    (hs : ∀ i, decode w = .ok i → ¬instrStores s i c p) : t.byteAt c p = s.byteAt c p := by
  rcases runWord_cases h with ⟨-, rfl⟩ | ⟨-, rfl⟩ | ⟨i, hd, hi⟩
  · rw [byteAt_raise]
  · rw [byteAt_raise]
  · exact exec_byteAt hi (hs i hd)

theorem engineKept_resetCount {s t : State} (h : engineKept s t) : t.resetCount = s.resetCount := by
  obtain ⟨-, -, -, -, -, -, -, -, hr, -⟩ := h
  exact hr

theorem issue_resetCount {w : Word} {during : List BusAccess} {s t : State} (h : issue w during s = .next t) :
    t.resetCount = s.resetCount := by
  rcases issue_cases h with ⟨-, rfl⟩ | ⟨-, h⟩
  · exact engineKept_resetCount (busAccesses_engineKept { s with ovr := true } during)
  · exact (runWord_resetCount h).trans
      (engineKept_resetCount (s := { s with busy := true }) (busAccesses_engineKept _ during))

/-- The accesses made while a command executes store nothing, so an issue stores what its command stores (R31). -/
theorem issue_byteAt {w : Word} {during : List BusAccess} {s t : State} (h : issue w during s = .next t)
    {c : CursorId} {p : Nat} (hs : ∀ i, decode w = .ok i → ¬instrStores s i c p) : t.byteAt c p = s.byteAt c p := by
  rcases issue_cases h with ⟨hb, rfl⟩ | ⟨-, h⟩
  · exact byteAt_busAccesses_busy (s := { s with ovr := true }) hb during c p
  · have hkept := busAccesses_engineKept { s with busy := true } during
    exact (runWord_byteAt h fun i hd hi => hs i hd (instrStores_of_engineKept hkept hi)).trans
      (byteAt_busAccesses_busy (s := { s with busy := true }) rfl during c p)

/-- The bytes that an access to a window covers are at the addresses `accessStores` names: being aligned, it does not
run past the window. -/
theorem accessStores_of_window {s : State} {addr : BusAddr} {data : BusData} {c : CursorId} {p q : Nat}
    (ht : busTarget s.params data.size addr = .window c p)
    (hq : p ≤ q ∧ q < p + BusSize.bytes data.size ∧ q < s.params.bufSize) : accessStores s (.write addr data) c q := by
  obtain ⟨haddr, -, hp, hal⟩ := busTarget_window_addr ht
  obtain ⟨hlo, hhi, hbuf⟩ := hq
  have hbase : addr.toNat = windowBase c + p := by cases c <;> exact haddr
  have hwin : q < 0x1000 := by
    cases data <;> simp only [BusData.size, BusSize.bytes] at hal hhi <;> omega
  exact ⟨hbuf, hwin, by omega, by omega⟩

/-- A host access stores to bytes at its own window addresses alone (R55). -/
theorem busAccess_byteAt {s : State} {a : BusAccess} {c : CursorId} {p : Nat} (h : ¬accessStores s a c p) :
    (s.busAccess a).byteAt c p = s.byteAt c p := by
  cases a with
  | read size addr =>
    simp only [State.busAccess]
    rw [busRead_frame]
    exact byteAt_congr rfl rfl p
  | write addr data =>
    simp only [State.busAccess]
    by_cases hb : s.busy = true
    · exact byteAt_busWrite_other (Or.inl hb) c p
    by_cases hwin : ∃ c' p', busTarget s.params data.size addr = .window c' p'
    · obtain ⟨c', p', ht⟩ := hwin
      rw [byteAt_busWrite_window (by simpa using hb) ht, if_neg]
      rintro ⟨rfl, hin⟩
      exact h (accessStores_of_window ht hin)
    · push Not at hwin
      exact byteAt_busWrite_other (Or.inr hwin) c p

theorem busAccess_resetCount (s : State) (a : BusAccess) : (s.busAccess a).resetCount = s.resetCount :=
  engineKept_resetCount (busAccess_engineKept s a)

/-- A step that is no reset keeps which draw is in force. -/
theorem step_resetCount {s t : State} (hrst : ∀ rest, s.host ≠ .rst :: rest) (h : step s = .next t) :
    t.resetCount = s.resetCount := by
  rcases step_cases h with
    ⟨-, rfl⟩ | ⟨e, rest, hh, ⟨rfl, -⟩ | ⟨a, -, -, rfl⟩ | ⟨a, w, -, -, h⟩ | ⟨w, during, -, h⟩⟩
  · rfl
  · exact absurd hh (hrst rest)
  · exact busAccess_resetCount { s with host := rest } a
  · exact issue_resetCount (s := { s with host := rest }) h
  · exact issue_resetCount (s := { s with host := rest }) h

/-- A step that is no reset keeps each byte that neither its host access nor its command stores to. -/
theorem step_byteAt {s t : State} (hrst : ∀ rest, s.host ≠ .rst :: rest) (h : step s = .next t) {c : CursorId}
    {p : Nat} (hs : ¬stepStores s c p) : t.byteAt c p = s.byteAt c p := by
  rcases step_cases h with
    ⟨-, rfl⟩ | ⟨e, rest, hh, ⟨rfl, -⟩ | ⟨a, rfl, -, rfl⟩ | ⟨a, w, rfl, hw, h⟩ | ⟨w, during, rfl, h⟩⟩
  · rfl
  · exact absurd hh (hrst rest)
  · simp only [stepStores, hh, not_or] at hs
    exact busAccess_byteAt (s := { s with host := rest }) hs.1
  · simp only [stepStores, hh, not_or] at hs
    exact issue_byteAt h fun i hd hi => hs.2 ⟨w, i, (command?_eq_some_iff a w).mp hw, hd, hi⟩
  · simp only [stepStores, hh] at hs
    exact issue_byteAt h fun i hd hi => hs ⟨i, hd, hi⟩

/-- Settles O10: after a reset nothing is written, and a later step's access or command spares every byte that
`stepStores` does not name. -/
theorem resetDrawIsHeld : Obligations.ResetDrawIsHeld := by
  refine ⟨fun s rest hh => ⟨_, step_rst hh, byteAt_afterReset _, fun c p v hp hw c' q => ?_⟩, fun s t hrst h => ?_⟩
  · rw [byteAt_busWrite_byte (s := State.afterReset { s with host := rest }) rfl c v hp hw, byteAt_afterReset]
  · exact ⟨step_resetCount hrst h, fun c p => step_byteAt hrst h⟩

/-! ### The STATUS register (R27) -/

theorem getLsbD_flagBit (b : Bool) (place i : Nat) :
    (flagBit b place).getLsbD i = (decide (i < 32) && (decide (i = place) && b)) := by
  by_cases h : i = place
  · subst h; simp [flagBit]
  · have hbit : i < place ∨ i - place ≠ 0 := by omega
    rcases hbit with hbit | hbit <;> simp [flagBit, h, hbit]

/-- `STATUS`, bit by bit: R27's table. -/
theorem getLsbD_statusWord (s : State) (i : Nat) :
    s.statusWord.getLsbD i =
      if i = 0 then s.busy else if 4 ≤ i ∧ i < 8 then s.err.code.getLsbD (i - 4) else if i = 8 then s.fatal
      else if i = 9 then s.ovr else if i = 10 then s.k0.seeded else if i = 11 then s.k1.seeded
      else if 12 ≤ i ∧ i < 14 then s.c0.mode.code.getLsbD (i - 12)
      else if 14 ≤ i ∧ i < 16 then s.c1.mode.code.getLsbD (i - 14) else false := by
  by_cases hi : i < 16
  · interval_cases i <;> simp [State.statusWord, flagBit]
  · have herr := BitVec.getLsbD_of_ge s.err.code (i - 4) (by omega)
    have hm0 := BitVec.getLsbD_of_ge s.c0.mode.code (i - 12) (by omega)
    have hm1 := BitVec.getLsbD_of_ge s.c1.mode.code (i - 14) (by omega)
    simp [State.statusWord, getLsbD_flagBit, herr, hm0, hm1, show i ≠ 0 by omega, show ¬i < 8 by omega,
      show i ≠ 8 by omega, show i ≠ 9 by omega, show i ≠ 10 by omega, show i ≠ 11 by omega]

/-- A field of `STATUS` is what its bits are. -/
theorem statusWord_field (s : State) (start : Nat) {n : Nat} (x : BitVec n)
    (h : ∀ i < n, s.statusWord.getLsbD (start + i) = x.getLsbD i) : s.statusWord.extractLsb' start n = x := by
  refine BitVec.eq_of_getLsbD_eq fun i hi => ?_
  rw [BitVec.getLsbD_extractLsb', h i hi, decide_eq_true hi, Bool.true_and]

/-- R27's table: the fields of `STATUS`, and its reserved bits. -/
theorem statusWord_fields (s : State) :
    s.statusWord.getLsbD 0 = s.busy ∧ s.statusWord.extractLsb' 1 3 = 0#3 ∧
      s.statusWord.extractLsb' 4 4 = s.err.code ∧ s.statusWord.getLsbD 8 = s.fatal ∧
      s.statusWord.getLsbD 9 = s.ovr ∧ s.statusWord.getLsbD 10 = s.k0.seeded ∧
      s.statusWord.getLsbD 11 = s.k1.seeded ∧ s.statusWord.extractLsb' 12 2 = s.c0.mode.code ∧
      s.statusWord.extractLsb' 14 2 = s.c1.mode.code ∧ s.statusWord.extractLsb' 16 16 = 0#16 := by
  have field (start : Nat) {n : Nat} (x : BitVec n) := statusWord_field s start x
  simp only [getLsbD_statusWord] at field ⊢
  refine ⟨rfl, field 1 _ ?_, field 4 _ ?_, rfl, rfl, rfl, rfl, field 12 _ ?_, field 14 _ ?_, field 16 _ ?_⟩
  all_goals
    intro i hi
    interval_cases i <;> rfl

/-- While `BUSY = 0` a read of `STATUS` answers the word. -/
theorem busRead_status {s : State} (hb : s.busy = false) :
    (s.busRead .full 0x004).answers = .b32 s.statusWord :: s.answers := by
  simp [State.busRead, hb, busTarget_register s.params (x := (0x004, .status)) (by simp [registerMap]), State.busValue,
    busData]

theorem busStore_status (s : State) (data : BusData) :
    s.busStore data .status = { s with ovr := s.ovr && !data.word.getLsbD 9 } := by
  simp only [State.busStore]
  split_ifs with h
  · rw [h, Bool.not_true, Bool.and_false]
  · rw [Bool.eq_false_of_not_eq_true h, Bool.not_false, Bool.and_true]

/-- A write to `STATUS` is never dropped, and clears `OVR` where bit 9 of the word is 1. -/
theorem busWrite_status (s : State) (v : Word) :
    s.busWrite 0x004 (.b32 v) = { s with ovr := s.ovr && !v.getLsbD 9 } := by
  have ht : busTarget s.params (BusData.b32 v).size 0x004 = .status := rfl
  simp only [State.busWrite, ht, droppedWhileBusy, Bool.and_false, Bool.false_eq_true, if_false]
  exact busStore_status s (.b32 v)

/-- Settles O52: the fields of the word, a read of it, and a write to it. -/
theorem statusRegister : Obligations.StatusRegister := fun s =>
  ⟨statusWord_fields s, busRead_status, busWrite_status s⟩

/-! ### Host accesses while `BUSY = 1` -/

/-- R31: a write that is dropped for `BUSY` sets `OVR`. -/
theorem busWrite_dropped {s : State} {addr : BusAddr} {data : BusData} (hb : s.busy = true)
    (hd : droppedWhileBusy (busTarget s.params data.size addr) = true) :
    s.busWrite addr data = { s with ovr := true } := by
  simp [State.busWrite, hb, hd]

/-- R25, R56: a read whose value is left unspecified while `BUSY = 1` answers the next free value. -/
theorem busRead_unspecified {s : State} {size : BusSize} {addr : BusAddr} (hb : s.busy = true)
    (hu : unspecifiedWhileBusy (busTarget s.params size addr) = true) :
    s.busRead size addr =
      { s with
        answers := busData size (Config.busyRead s.busyReads) :: s.answers
        busyReads := s.busyReads + 1 } := by
  simp [State.busRead, hb, hu]

/-- Settles O57: the address of each write reaches a target whose writes are dropped. -/
theorem busyWritesAreDropped : Obligations.BusyWritesAreDropped := by
  intro s v hb
  refine ⟨fun a ha => ?_, fun c p data hal hp hw => ?_⟩
  · refine busWrite_dropped hb ?_
    fin_cases ha <;> rfl
  · refine busWrite_dropped hb ?_
    rw [busTarget_windowAddr c hal hp hw]
    rfl

/-- Settles O59: the address of each read reaches a target whose reads are unspecified. -/
theorem busyReadsAreFree : Obligations.BusyReadsAreFree := by
  intro s hb
  refine ⟨fun a ha => ?_, fun c p size hal hp hw => ?_⟩
  · refine busRead_unspecified hb ?_
    fin_cases ha <;> rfl
  · refine busRead_unspecified hb ?_
    rw [busTarget_windowAddr c hal hp hw]
    rfl

end Sys2Proof.Machine

/-! The statements about the host's address space: which commands complete inside the buffer, what each address reaches,
and what an access reads and writes there. -/

namespace Sys2Proof.Machine

open Sys2Proof.Claims

/-! ### The error a command reports, and the bytes it needs (R218, R50) -/

/-- R107: the orders that a width of 1 or 2 bytes does not have. -/
theorem orderIllegal_iff (ord : ByteOrder) (w : Width) :
    orderIllegal ord w = true ↔ (w = .w8 ∨ w = .w16) ∧ (ord = .middle ∨ ord = .inverseMiddle) := by
  cases ord <;> cases w <;> decide

/-- R142: the bit counts outside 1 to 32. -/
theorem bitCountIllegal_iff (n : Nat) : bitCountIllegal n = true ↔ ¬(1 ≤ n ∧ n ≤ 32) := by
  simp only [bitCountIllegal, Bool.or_eq_true, decide_eq_true_eq]
  omega

/-- An earlier level of R218 hides a later one. -/
theorem ite_some_or (p : Prop) [Decidable p] (e : ErrCode) (x : Option ErrCode) :
    (if p then some e else none).or x = if p then some e else x := by
  split_ifs <;> rfl

/-- A requirement is a check that applies where it is not met. -/
theorem ite_none_some (p : Prop) [Decidable p] (e : ErrCode) :
    (if p then none else some e) = if ¬p then some e else none := by
  rw [ite_not]

/-- R218's level 3 is the check of the cursor's mode, and the levels after it follow. -/
theorem reportedError_of_mode {s : State} {i : Instr} {c : CursorId} {m : Mode} (hf : s.fatal = false)
    (hc : cursorOf i = some c) (hm : ∀ m', modeAllows i m' = decide (m' = m)) :
    reportedError s i =
      if (s.modeCheck c m).1 = true then some .modeViolation
      else ((fieldError i).or (cipherError s i)).or (boundsError s i) := by
  simp [reportedError, hf, modeForbids, hc, hm, State.modeCheck]

/-- A command that needs no mode has no level 3. -/
theorem reportedError_of_no_mode {s : State} {i : Instr} (hf : s.fatal = false) (hm : modeForbids s i = false) :
    reportedError s i = ((fieldError i).or (cipherError s i)).or (boundsError s i) := by
  simp [reportedError, hf, hm]

/-- Without the lock, the checks a command makes in turn are the levels of R218. -/
theorem reportedError_eq_firstError {s : State} (hf : s.fatal = false) (i : Instr) :
    reportedError s i = firstError (checksFor s i) := by
  cases i
  case clr => exact reportedError_of_no_mode hf rfl
  case bwbegin | bwend | brbegin | brend => exact reportedError_of_mode hf rfl fun _ => rfl
  case setw | rd | wr | wbits | rbits =>
    rw [reportedError_of_mode hf rfl fun _ => rfl]
    simp only [fieldError, cipherError, boundsError, checksFor, State.modeCheck, firstError_cons, firstError_nil,
      Bool.or_eq_true, decide_eq_true_eq, orderIllegal_iff, bitCountIllegal_iff, ite_some_or, ite_none_some, not_le,
      not_and_or, Option.or_none, Option.none_or]
  case cseed | cnext | cdec | cenc =>
    rw [reportedError_of_no_mode hf rfl]
    simp only [fieldError, cipherError, boundsError, checksFor, firstError_cons, firstError_nil, ite_none_some,
      Bool.not_eq_true', Bool.not_eq_true, Option.or_none, Option.none_or]

/-- The lock is the error every command reports while `FATAL = 1` (R217). -/
theorem reportedError_of_fatal {s : State} (hf : s.fatal = true) (i : Instr) :
    reportedError s i = some .fatalLock := by
  simp [reportedError, hf]

/-- No check of a command reports success. -/
theorem firstError_checksFor_ne_ok {s : State} {i : Instr} {e : ErrCode}
    (h : firstError (checksFor s i) = some e) : e ≠ .ok := by
  have hm := firstError_mem h
  rintro rfl
  cases i <;> simp [checksFor, State.modeCheck] at hm

/-- The bytes that R123, R146 and R148 name are those the model's command must find in the buffer. -/
theorem lastByte_eq_reachOf (s : State) (i : Instr) : lastByte s i = reachOf s i := by
  cases i
  case rbits c n => exact (ceil8_eq _).symm
  case bwend c =>
    have hpad (q : Nat) : padLength q = 0 ↔ q % 8 = 0 := by unfold padLength; omega
    simp only [lastByte, reachOf, hpad, ceil8_eq]
  all_goals rfl

/-- Settles O13, by the four things a command can do. -/
theorem commandsCompleteInsideTheBuffer : Obligations.CommandsCompleteInsideTheBuffer := by
  intro i s
  rw [lastByte_eq_reachOf]
  rcases exec_cases i s with ⟨hf, he⟩ | ⟨hf, e, hc, he⟩ | ⟨hf, hc, hr, he⟩ | ⟨hf, hc, hr, he⟩
  · rw [reportedError_of_fatal hf, if_neg (by simp)]
    exact ⟨_, he, by simp⟩
  · rw [reportedError_eq_firstError hf, hc, if_neg (by simp)]
    exact ⟨_, he, by simp [firstError_checksFor_ne_ok hc]⟩
  · rw [if_neg (by omega)]
    exact ⟨_, he, by simp [reportedError_eq_firstError hf, hc]⟩
  · rw [reportedError_eq_firstError hf, if_pos ⟨hc, hr⟩]
    exact he

/-! ### What an access does at its target (R52 to R55) -/

/-- A write that is not dropped for `BUSY` has its target's effect (R31). -/
theorem busWrite_taken {s : State} {addr : BusAddr} {data : BusData} {t : BusTarget}
    (ht : busTarget s.params data.size addr = t) (h : s.busy = false ∨ droppedWhileBusy t = false) :
    s.busWrite addr data = s.busStore data t := by
  rcases h with h | h <;> simp [State.busWrite, ht, h]

/-- A read whose value the rules give answers that value, and changes nothing of the KCB (R25, R56, R62). -/
theorem busRead_specified {s : State} {size : BusSize} {addr : BusAddr} {t : BusTarget}
    (ht : busTarget s.params size addr = t) (h : s.busy = false ∨ unspecifiedWhileBusy t = false) :
    s.busRead size addr = { s with answers := busData size (s.busValue size t) :: s.answers } := by
  rcases h with h | h <;> simp [State.busRead, ht, h]

/-! ### The register map (R52, R53) -/

/-- R52's table of reads lists the offsets of the map, each with what its register reads. -/
theorem registerReads_eq (s : State) :
    registerReads s = registerMap.map fun x => (BitVec.ofNat 14 x.1, s.busValue .full x.2) := rfl

/-- R25: the registers of the map whose reads are unspecified while `BUSY = 1` are those of `unspecifiedOffsets`. -/
theorem unspecifiedWhileBusy_register :
    ∀ x ∈ registerMap, BitVec.ofNat 14 x.1 ∉ unspecifiedOffsets → unspecifiedWhileBusy x.2 = false := by
  decide

/-- R53: an offset that is none of the map's registers is reserved. -/
theorem registerAt_of_not_mem {s : State} {a : BusAddr} (h : ∀ p ∈ registerReads s, p.1 ≠ a) :
    registerAt a.toNat = .reserved := by
  refine (registerAt_cases a.toNat).resolve_left fun hm => ?_
  rw [registerReads_eq] at h
  exact h _ (List.mem_map_of_mem hm) (by simp)

/-- What a 32-bit access at an aligned offset of the register space reaches. -/
theorem busTarget_registerAt (P : Params) {a : BusAddr} (ha : a.toNat < 0x1000) (hal : a.toNat % 4 = 0) :
    busTarget P .full a = registerAt a.toNat := by
  simp [busTarget, ha, hal]

/-- Settles O53: each offset of the map reaches its register, and every other aligned one is reserved. -/
theorem registerMapReads : Obligations.RegisterMapReads := by
  intro s
  refine ⟨fun p hp hb => ?_, fun a ha hal hno => ?_⟩
  · rw [registerReads_eq, List.mem_map] at hp
    obtain ⟨x, hx, rfl⟩ := hp
    rw [busRead_specified (busTarget_register s.params hx) (hb.imp_right (unspecifiedWhileBusy_register x hx))]
    rfl
  · have ht := (busTarget_registerAt s.params ha hal).trans (registerAt_of_not_mem hno)
    rw [busRead_specified ht (Or.inr rfl)]
    rfl

/-- Settles O54: each offset reaches its register, and a write that is not dropped has that register's effect. -/
theorem registerMapWrites : Obligations.RegisterMapWrites := by
  intro s v hb
  have taken {addr : BusAddr} {t : BusTarget} (ht : busTarget s.params .full addr = t) :
      s.busWrite addr (.b32 v) = s.busStore (.b32 v) t := busWrite_taken ht (Or.inl hb)
  refine ⟨taken rfl, taken rfl, taken rfl, taken rfl, taken rfl, taken rfl, fun a ha => ?_⟩
  fin_cases ha <;> exact taken rfl

/-! ### Reserved offsets and bad accesses (R53 to R55) -/

/-- A window access that is misaligned or begins past the buffer reaches nothing (R55). -/
theorem windowAt_ignored {P : Params} {size : BusSize} (c : CursorId) {p : Nat}
    (h : p % BusSize.bytes size ≠ 0 ∨ P.bufSize ≤ p) :
    windowAt P size c p = .reserved ∨ windowAt P size c p = .bad := by
  unfold windowAt
  split_ifs with hal hp
  · exact Or.inr rfl
  · omega
  · exact Or.inl rfl

/-- An access to a register that is narrow, misaligned or to no register of the map reaches nothing (R53, R54). -/
theorem busTarget_register_ignored {s : State} {size : BusSize} {a : BusAddr} (ha : a.toNat < 0x1000)
    (h : size ≠ .full ∨ a.toNat % 4 ≠ 0 ∨ ∀ p ∈ registerReads s, p.1 ≠ a) :
    busTarget s.params size a = .reserved ∨ busTarget s.params size a = .bad := by
  simp only [busTarget, ha, if_true]
  split_ifs with hok
  · simp only [Bool.and_eq_true, decide_eq_true_eq] at hok
    obtain ⟨hsize, hal⟩ := hok
    exact Or.inl (registerAt_of_not_mem ((h.resolve_left (not_not.mpr hsize)).resolve_left (not_not.mpr hal)))
  · exact Or.inr rfl

/-- The windows start at multiples of every access width, so an address is aligned as its window offset is (R51). -/
theorem sub_mod_busSize (size : BusSize) {a base : Nat} (h : base ≤ a) (hb : base % 4 = 0) :
    (a - base) % BusSize.bytes size = a % BusSize.bytes size := by
  cases size <;> simp only [BusSize.bytes] <;> omega

/-- A misaligned access to a window, or one past the buffer, reaches nothing (R55). -/
theorem busTarget_window_ignored {P : Params} {size : BusSize} {a : BusAddr} (hlo : 0x1000 ≤ a.toNat)
    (hhi : a.toNat < 0x3000) (h : a.toNat % BusSize.bytes size ≠ 0 ∨ P.bufSize ≤ a.toNat % 0x1000) :
    busTarget P size a = .reserved ∨ busTarget P size a = .bad := by
  simp only [busTarget, if_neg (Nat.not_lt.mpr hlo), hhi, if_true]
  split_ifs with hwin
  · refine windowAt_ignored .c0 (h.imp (fun hal => ?_) fun hp => ?_)
    · rwa [sub_mod_busSize size hlo rfl]
    · omega
  · refine windowAt_ignored .c1 (h.imp (fun hal => ?_) fun hp => ?_)
    · rwa [sub_mod_busSize size (by omega) rfl]
    · omega

/-- An access that reaches nothing changes nothing, and reads 0, whatever `BUSY` is (R53, R54). -/
theorem access_ignored {s : State} {a : BusAddr} {data : BusData}
    (h : busTarget s.params data.size a = .reserved ∨ busTarget s.params data.size a = .bad) :
    s.busWrite a data = s ∧ s.busRead data.size a = { s with answers := busData data.size 0 :: s.answers } := by
  rcases h with ht | ht <;> exact ⟨busWrite_taken ht (Or.inr rfl), busRead_specified ht (Or.inr rfl)⟩

/-- Settles O55: each of these accesses is to a reserved offset or a bad one. -/
theorem reservedAndBadAccesses : Obligations.ReservedAndBadAccesses := by
  intro s a data h
  refine access_ignored ?_
  rcases h with hpast | ⟨ha, hreg⟩ | ⟨hlo, hhi, hwin⟩
  · have h1 : ¬a.toNat < 0x1000 := by omega
    have h2 : ¬a.toNat < 0x2000 := by omega
    exact Or.inl (by simp [busTarget, h1, h2, Nat.not_lt.mpr hpast])
  · exact busTarget_register_ignored ha hreg
  · exact busTarget_window_ignored hlo hhi hwin

/-! ### The bytes of an access (R57) -/

/-- No access is wider than the bus (R51). -/
theorem busSize_bytes_le (size : BusSize) : BusSize.bytes size ≤ 4 := by cases size <;> decide

@[simp] theorem busData_size (size : BusSize) (v : Word) : (busData size v).size = size := by cases size <;> rfl

/-- The data lines carry the low bits of a value, as many as the access is wide. -/
theorem busData_word (size : BusSize) (v : Word) :
    (busData size v).word = (v.setWidth (8 * BusSize.bytes size)).setWidth 32 := by
  cases size
  · rfl
  · rfl
  · exact (BitVec.setWidth_eq v).symm

/-- Byte `j` of the value an access carries. -/
theorem extract_busData (size : BusSize) (v : Word) {j : Nat} (hj : j < BusSize.bytes size) :
    (busData size v).word.extractLsb' (8 * j) 8 = v.extractLsb' (8 * j) 8 := by
  have := busSize_bytes_le size
  rw [busData_word, BitVec.extractLsb'_setWidth_of_le (by omega), BitVec.extractLsb'_setWidth_of_le (by omega)]

/-- The data lines above an access's width are 0. -/
theorem getLsbD_word_of_ge (x : BusData) {i : Nat} (h : 8 * BusSize.bytes x.size ≤ i) : x.word.getLsbD i = false := by
  cases x with
  | b8 v => simp [BusData.word, BitVec.getLsbD_of_ge v i h]
  | b16 v => simp [BusData.word, BitVec.getLsbD_of_ge v i h]
  | b32 v => exact BitVec.getLsbD_of_ge v i h

/-- Accesses of one width with the same data lines are the same. -/
theorem busData_eq_of_word {x y : BusData} (hs : x.size = y.size) (hw : x.word = y.word) : x = y := by
  cases x <;> cases y <;> cases hs
  case b8 v v' =>
    have hv : v = v' := by simpa [BusData.word] using congrArg (BitVec.setWidth 8) hw
    rw [hv]
  case b16 v v' =>
    have hv : v = v' := by simpa [BusData.word] using congrArg (BitVec.setWidth 16) hw
    rw [hv]
  case b32 v v' => exact congrArg BusData.b32 hw

/-- Accesses of one width that carry the same bytes are the same. -/
theorem busData_eq_of_bytes {x y : BusData} (hs : x.size = y.size)
    (h : ∀ j, j < BusSize.bytes x.size → x.word.extractLsb' (8 * j) 8 = y.word.extractLsb' (8 * j) 8) : x = y := by
  refine busData_eq_of_word hs (BitVec.eq_of_getLsbD_eq fun i _ => ?_)
  by_cases hi : i < 8 * BusSize.bytes x.size
  · have hbit := congrArg (fun b => b.getLsbD (i % 8)) (h (i / 8) (by omega))
    have hpos : 8 * (i / 8) + i % 8 = i := by omega
    simpa [BitVec.getLsbD_extractLsb', hpos, Nat.mod_lt] using hbit
  · rw [getLsbD_word_of_ge x (by omega), getLsbD_word_of_ge y (by rw [← hs]; omega)]

/-! ### Windows (R55 to R57) -/

/-- A window write is a change of one cursor's buffer. -/
theorem busWrite_window_frame {s : State} {addr : BusAddr} {data : BusData} {c : CursorId} {p : Nat}
    (hb : s.busy = false) (ht : busTarget s.params data.size addr = .window c p) :
    s.busWrite addr data = s.setCursor c { s.cursor c with buf := ((s.busWrite addr data).cursor c).buf } := by
  rw [busWrite_taken ht (Or.inl hb)]
  exact writeBytes_eq_setCursor s c p _

/-- A window write while `BUSY = 0` stores byte `j` of its data at position `p + j`, where the buffer has that byte. -/
theorem byteAt_busWrite_window_inside {s : State} {addr : BusAddr} {data : BusData} {c : CursorId} {p j : Nat}
    (hb : s.busy = false) (ht : busTarget s.params data.size addr = .window c p)
    (hj : j < BusSize.bytes data.size) (hin : p + j < s.params.bufSize) :
    (s.busWrite addr data).byteAt c (p + j) = data.word.extractLsb' (8 * j) 8 := by
  have := busSize_bytes_le data.size
  rw [byteAt_busWrite_window hb ht, if_pos ⟨rfl, by omega, by omega, hin⟩, Nat.add_sub_cancel_left,
    splitBytes_getD _ _ _ hj, BitVec.extractLsb'_setWidth_of_le (by omega)]

/-- Byte `j` of the value of a window. -/
theorem extract_busValue_window (s : State) (size : BusSize) (c : CursorId) (p : Nat) {j : Nat}
    (hj : j < BusSize.bytes size) :
    (s.busValue size (.window c p)).extractLsb' (8 * j) 8 = s.windowByte c (p + j) := by
  have := busSize_bytes_le size
  simp only [State.busValue]
  rw [BitVec.extractLsb'_setWidth_of_le (by omega), extract_joinBytes _ _ (by omega)]
  simp [hj]

/-- A window read while `BUSY = 0` answers byte `p + j` of the window as its byte `j`. -/
theorem busRead_window {s : State} {size : BusSize} {addr : BusAddr} {c : CursorId} {p : Nat} (hb : s.busy = false)
    (ht : busTarget s.params size addr = .window c p) :
    ∃ answer : BusData, (s.busRead size addr).answers = answer :: s.answers ∧ answer.size = size ∧
      ∀ j, j < BusSize.bytes size → answer.word.extractLsb' (8 * j) 8 = s.windowByte c (p + j) := by
  rw [busRead_specified ht (Or.inl hb)]
  refine ⟨_, rfl, busData_size _ _, fun j hj => ?_⟩
  rw [extract_busData _ _ hj, extract_busValue_window s size c p hj]

/-- Reading back a window write answers the bytes stored, and 0 past the buffer's end. -/
theorem busRead_busWrite_window {s : State} {addr : BusAddr} {data : BusData} {c : CursorId} {p : Nat}
    (hb : s.busy = false) (ht : busTarget s.params data.size addr = .window c p) :
    ∃ answer : BusData, ((s.busWrite addr data).busRead data.size addr).answers = answer :: s.answers ∧
      answer.size = data.size ∧
      ∀ j, j < BusSize.bytes data.size → answer.word.extractLsb' (8 * j) 8 =
        if p + j < s.params.bufSize then data.word.extractLsb' (8 * j) 8 else 0#8 := by
  have hframe := busWrite_window_frame hb ht
  have hbusy : (s.busWrite addr data).busy = false := by rw [hframe]; exact hb
  have hparams : (s.busWrite addr data).params = s.params := by rw [hframe]; rfl
  have hanswers : (s.busWrite addr data).answers = s.answers := by rw [hframe]; rfl
  obtain ⟨answer, ha, hsize, hbytes⟩ := busRead_window hbusy (hparams ▸ ht)
  refine ⟨answer, hanswers ▸ ha, hsize, fun j hj => ?_⟩
  rw [hbytes j hj, State.windowByte, hparams]
  split_ifs with hin
  · exact byteAt_busWrite_window_inside hb ht hj hin
  · rfl

/-- Settles O56: the access reaches the window of its address. -/
theorem windowWriteThenRead : Obligations.WindowWriteThenRead := by
  intro s c p data n hb hal hp hw t
  have ht : busTarget s.params data.size (windowAddr c p) = .window c p := busTarget_windowAddr c hal hp hw
  obtain ⟨answer, ha, hsize, hbytes⟩ := busRead_busWrite_window hb ht
  refine ⟨fun j => byteAt_busWrite_window_inside hb ht, fun q hq => ?_, busWrite_window_frame hb ht,
    ⟨answer, ha, hsize, hbytes⟩, fun hin => ?_⟩
  · rw [byteAt_busWrite_window hb ht, if_neg (by omega)]
  · have heq : answer = data := busData_eq_of_bytes hsize fun j hj => by
      rw [hsize] at hj
      rw [hbytes j hj, if_pos (by omega)]
    rw [ha, heq]

/-! ### A host access that issues no command (R62) -/

/-- A step whose next host action is such an access makes it, with the action taken off the host's list. -/
theorem step_access {s : State} {a : BusAccess} {rest : List HostEvent} (h : s.host = .access a :: rest)
    (ha : a.command? = none) : step s = .next (State.busAccess { s with host := rest } a) := by
  simp [step, hostStep, h, hostEvent, ha]

/-- An access that is no 32-bit write to `CMD` issues no command (R23). -/
theorem command?_eq_none {a : BusAccess} (h : ∀ w, a ≠ .write 0x000 (.b32 w)) : a.command? = none :=
  Option.eq_none_iff_forall_ne_some.mpr fun w hw => h w ((command?_eq_some_iff a w).mp hw)

/-- Settles O58: an access keeps the engine, and one that issues no command is the whole of its step. -/
theorem busAccessSideEffects : Obligations.BusAccessSideEffects := by
  refine ⟨fun s a => ⟨?_, fun size addr ha => ?_⟩, fun s a rest hh ha => step_access hh (command?_eq_none ha)⟩
  · obtain ⟨hdout, herrcmd, hbusy, herr, hfatal, hk0, hk1, -, -, -, hpos⟩ := busAccess_engineKept s a
    refine ⟨hdout, herr, herrcmd, hfatal, hbusy, hpos, fun k => ?_⟩
    cases k
    · exact hk0
    · exact hk1
  · subst ha
    exact busRead_frame s size addr

end Sys2Proof.Machine

/-! The statements about the command word: the decoder and the encoder undo each other, the legal words are those of
the opcode table's rows, and an illegal word raises `IllegalCommand`. -/

namespace Sys2Proof

open Sys2Proof.Machine Sys2Proof.Claims
open Sys2Proof.Laws.EncodedFields (unpack_pack)

/-! ### The codes of the fields (R71 to R76) -/

@[simp] theorem cursorOfSel_sel (c : CursorId) : cursorOfSel c.sel = c := by cases c <;> rfl

@[simp] theorem sel_cursorOfSel (b : BitVec 1) : (cursorOfSel b).sel = b := by revert b; decide

@[simp] theorem cipherOfSel_sel (k : CipherId) : cipherOfSel k.sel = k := by cases k <;> rfl

@[simp] theorem sel_cipherOfSel (b : BitVec 1) : (cipherOfSel b).sel = b := by revert b; decide

@[simp] theorem widthOfCode_code (w : Width) : widthOfCode w.code = w := by cases w <;> rfl

@[simp] theorem code_widthOfCode (b : BitVec 2) : (widthOfCode b).code = b := by revert b; decide

@[simp] theorem orderOfCode_code (ord : ByteOrder) : orderOfCode ord.code = ord := by cases ord <;> rfl

@[simp] theorem code_orderOfCode (b : BitVec 2) : (orderOfCode b).code = b := by revert b; decide

@[simp] theorem beq_one_signCode (signed : Bool) : (signCode signed == 1#1) = signed := by cases signed <;> rfl

@[simp] theorem signCode_beq_one (b : BitVec 1) : signCode (b == 1#1) = b := by revert b; decide

@[simp] theorem encodingOfCode_code (enc : OffsetEncoding) : encodingOfCode enc.code = some enc := by
  cases enc <;> rfl

theorem code_of_encodingOfCode {b : BitVec 3} {enc : OffsetEncoding} (h : encodingOfCode b = some enc) :
    enc.code = b := by
  revert b; cases enc <;> decide

/-- R82: code 7 is the only code that names no offset encoding. -/
theorem encodingOfCode_eq_none_iff (b : BitVec 3) : encodingOfCode b = none ↔ b = 7#3 := by
  revert b; decide

theorem opOfCode_eq_some_iff (b : BitVec 4) (op : Op) : opOfCode b = some op ↔ op.code = b := by
  revert b; cases op <;> decide

/-! ### The stages of decoding (R80) -/

/-- R79: each field the operation does not use is 0. -/
theorem unusedFieldSet_eq_false_iff (u : Uses) (f : Fields) :
    unusedFieldSet u f = false ↔
      (u.w = false → f.w = 0#2) ∧ (u.s = false → f.s = 0#1) ∧ (u.enc = false → f.enc = 0#3) ∧
      (u.ord = false → f.ord = 0#2) ∧ (u.n = false → f.n = 0#6) := by
  simp [unusedFieldSet, and_assoc]

/-- All that decoding checks: the reserved bits, the operation, its unused fields, and what `instrOf` refuses. -/
theorem decodeFields_eq_ok_iff_stages (f : Fields) (i : Instr) :
    decodeFields f = .ok i ↔
      f.res = 0#13 ∧ ∃ op : Op, op.code = f.op ∧ unusedFieldSet op.uses f = false ∧ instrOf op f = .ok i := by
  simp only [← opOfCode_eq_some_iff]
  by_cases hres : f.res = 0#13
  · cases hop : opOfCode f.op with
    | none => simp [decodeFields, hres, hop]
    | some op => cases hu : unusedFieldSet op.uses f <;> simp [decodeFields, hres, hop, hu]
  · simp [decodeFields, hres]

/-- R82: an operation and its fields make a command, but for `RD` and `WR` with the reserved encoding. -/
theorem exists_instrOf_iff (op : Op) (f : Fields) :
    (∃ i, instrOf op f = .ok i) ↔ ¬((op = .rd ∨ op = .wr) ∧ f.enc = 7#3) := by
  rw [← encodingOfCode_eq_none_iff]
  cases op
  case rd | wr => cases he : encodingOfCode f.enc <;> simp [instrOf, he]
  all_goals simp [instrOf]

/-! ### The fields of an instruction -/

/-- Fields whose reserved bits and unused fields are 0 are those of the command they make, and its count fits `N`. -/
theorem fieldsOf_of_instrOf {op : Op} {f : Fields} {i : Instr} (hres : f.res = 0#13) (hop : op.code = f.op)
    (hu : unusedFieldSet op.uses f = false) (hi : instrOf op f = .ok i) : fieldsOf i = f ∧ i.wellFormed = true := by
  obtain ⟨hw, hs, henc, hord, hn⟩ := (unusedFieldSet_eq_false_iff _ _).mp hu
  obtain ⟨fop, sel, w, s, enc, ord, n, res⟩ := f
  simp only at hres hop hw hs henc hord hn
  cases op
  case rd | wr =>
    cases he : encodingOfCode enc with
    | none => simp [instrOf, he] at hi
    | some e =>
      simp only [instrOf, he, Except.ok.injEq] at hi
      subst hi
      simp_all [fieldsOf, Instr.wellFormed, Op.uses, code_of_encodingOfCode he]
  case wbits | rbits =>
    cases hi
    simp_all [fieldsOf, Instr.wellFormed, Op.uses, bitCountFits, n.isLt]
  all_goals
    cases hi
    simp_all [fieldsOf, selFields, Instr.wellFormed, Op.uses]

/-- The operation of an instruction (R71). -/
def Instr.op : Instr → Op
  | .clr _ => .clr
  | .setw _ => .setw
  | .rd _ _ _ _ _ => .rd
  | .wr _ _ _ _ => .wr
  | .bwbegin _ => .bwbegin
  | .wbits _ _ => .wbits
  | .bwend _ => .bwend
  | .brbegin _ => .brbegin
  | .rbits _ _ => .rbits
  | .brend _ => .brend
  | .cseed _ => .cseed
  | .cnext _ => .cnext
  | .cdec _ => .cdec
  | .cenc _ => .cenc

theorem op_fieldsOf (i : Instr) : i.op.code = (fieldsOf i).op := by cases i <;> rfl

theorem res_fieldsOf (i : Instr) : (fieldsOf i).res = 0#13 := by cases i <;> rfl

/-- R79: an instruction's word has 0 in the fields its operation does not use. -/
theorem unusedFieldSet_fieldsOf (i : Instr) : unusedFieldSet i.op.uses (fieldsOf i) = false := by cases i <;> rfl

/-- The operation and the fields of a well-formed instruction make that instruction. -/
theorem instrOf_fieldsOf {i : Instr} (h : i.wellFormed = true) : instrOf i.op (fieldsOf i) = .ok i := by
  cases i
  case wbits c n | rbits c n =>
    have hn : n < 64 := by simpa [Instr.wellFormed, bitCountFits] using h
    simp [instrOf, Instr.op, fieldsOf, hn]
  all_goals simp [instrOf, Instr.op, fieldsOf, selFields]

/-- On fields, decoding is the inverse of `fieldsOf` on the well-formed instructions. -/
theorem decodeFields_eq_ok_iff (f : Fields) (i : Instr) :
    decodeFields f = .ok i ↔ fieldsOf i = f ∧ i.wellFormed = true := by
  rw [decodeFields_eq_ok_iff_stages]
  constructor
  · rintro ⟨hres, op, hop, hu, hi⟩
    exact fieldsOf_of_instrOf hres hop hu hi
  · rintro ⟨rfl, hwf⟩
    exact ⟨res_fieldsOf i, i.op, op_fieldsOf i, unusedFieldSet_fieldsOf i, instrOf_fieldsOf hwf⟩

/-! ### The fields of a word (R70) -/

/-- The fields of a word hold all its bits. -/
theorem pack_unpack (w : Word) : pack (unpack w) = w := by
  refine BitVec.eq_of_getLsbD_eq fun i hi => ?_
  simp only [pack, unpack, BitVec.getLsbD_or, BitVec.getLsbD_shiftLeft, BitVec.getLsbD_setWidth,
    BitVec.getLsbD_extractLsb']
  interval_cases i <;> simp

theorem unpack_inj {v w : Word} : unpack v = unpack w ↔ v = w :=
  ⟨fun h => by rw [← pack_unpack v, h, pack_unpack], congrArg unpack⟩

/-- R80: a word decodes to an instruction exactly when it is the command word of it and the instruction is
well-formed. -/
theorem decode_eq_ok_iff (w : Word) (i : Instr) : decode w = .ok i ↔ encode i = w ∧ i.wellFormed = true := by
  rw [decode, decodeFields_eq_ok_iff, encode, ← unpack_inj, unpack_pack]

/-- Settles O1: the instruction meets both sides of `decode_eq_ok_iff`. -/
theorem decodeInvertsEncode : Obligations.DecodeInvertsEncode :=
  fun i hwf => (decode_eq_ok_iff _ i).mpr ⟨rfl, hwf⟩

/-- Settles O2: the other direction of `decode_eq_ok_iff`. -/
theorem encodeInvertsDecode : Obligations.EncodeInvertsDecode :=
  fun w i => (decode_eq_ok_iff w i).mp

/-! ### The rows of the opcode table (R79 to R82) -/

/-- The bits of a word that R78 to R81 fix for an operation with these uses, as the fields that hold them. -/
def Uses.fixedFields (u : Uses) : Fields where
  op := BitVec.allOnes 4
  sel := 0#1
  w := if u.w then 0#2 else BitVec.allOnes 2
  s := if u.s then 0#1 else BitVec.allOnes 1
  enc := if u.enc then 0#3 else BitVec.allOnes 3
  ord := if u.ord then 0#2 else BitVec.allOnes 2
  n := if u.n then 0#6 else BitVec.allOnes 6
  res := BitVec.allOnes 13

/-- The match and mask of an operation's words. -/
def Op.row (op : Op) : Word × Word := (pack (selFields op 0#1), pack op.uses.fixedFields)

/-- The operations, in the order of their codes. -/
def Op.all : List Op :=
  [.clr, .setw, .rd, .wr, .bwbegin, .wbits, .bwend, .brbegin, .rbits, .brend, .cseed, .cnext, .cdec, .cenc]

theorem Op.mem_all (op : Op) : op ∈ Op.all := by cases op <;> decide

/-- The rows of the opcode table are those of the operations. -/
theorem opcodeRows_eq_map_row : opcodeRows = Op.all.map Op.row := by decide

theorem exists_mem_opcodeRows_iff (P : Word × Word → Prop) : (∃ r ∈ opcodeRows, P r) ↔ ∃ op : Op, P op.row := by
  simp [opcodeRows_eq_map_row, Op.mem_all]

/-- The conjunction of two words, field by field. -/
theorem unpack_and (v w : Word) :
    unpack (v &&& w) =
      { op := (unpack v).op &&& (unpack w).op
        sel := (unpack v).sel &&& (unpack w).sel
        w := (unpack v).w &&& (unpack w).w
        s := (unpack v).s &&& (unpack w).s
        enc := (unpack v).enc &&& (unpack w).enc
        ord := (unpack v).ord &&& (unpack w).ord
        n := (unpack v).n &&& (unpack w).n
        res := (unpack v).res &&& (unpack w).res } := by
  simp [unpack, BitVec.extractLsb'_and]

/-- A masked field is 0 when the operation uses it, or when the field itself is 0. -/
theorem and_mask_eq_zero_iff {k : Nat} (used : Bool) (x : BitVec k) :
    x &&& (if used then 0#k else BitVec.allOnes k) = 0#k ↔ (used = false → x = 0#k) := by
  cases used <;> simp

/-- A word matches the row of an operation exactly when it passes R80's checks against that operation. -/
theorem matches_row_iff (op : Op) (w : Word) :
    w &&& op.row.2 = op.row.1 ↔
      (unpack w).res = 0#13 ∧ op.code = (unpack w).op ∧ unusedFieldSet op.uses (unpack w) = false := by
  rw [← unpack_inj, unpack_and, Op.row, unpack_pack, unpack_pack, unusedFieldSet_eq_false_iff]
  simp only [Uses.fixedFields, selFields, Fields.mk.injEq, and_mask_eq_zero_iff, BitVec.and_allOnes, BitVec.and_zero,
    eq_comm (a := op.code)]
  tauto

/-- R82 on the fields of a word whose operation is `op`. -/
theorem reservedEncoding_iff {op : Op} {w : Word} (hop : op.code = (unpack w).op) :
    reservedEncoding w ↔ (op = .rd ∨ op = .wr) ∧ (unpack w).enc = 7#3 := by
  have hcode : (unpack w).op = 2#4 ∨ (unpack w).op = 3#4 ↔ op = .rd ∨ op = .wr := by
    rw [← hop]; cases op <;> decide
  rw [← hcode]; rfl

/-- Settles O3: both sides say that the word passes R80's checks against some operation, and R82's. -/
theorem legalWordsAreTheTableRows : Obligations.LegalWordsAreTheTableRows := by
  intro w
  rw [exists_mem_opcodeRows_iff fun r => w &&& r.2 = r.1]
  simp only [matches_row_iff, decode, decodeFields_eq_ok_iff_stages]
  constructor
  · rintro ⟨i, hres, op, hop, hu, hi⟩
    refine ⟨⟨op, hres, hop, hu⟩, ?_⟩
    rw [reservedEncoding_iff hop]
    exact (exists_instrOf_iff op _).mp ⟨i, hi⟩
  · rintro ⟨⟨op, hres, hop, hu⟩, henc⟩
    rw [reservedEncoding_iff hop] at henc
    obtain ⟨i, hi⟩ := (exists_instrOf_iff op _).mpr henc
    exact ⟨i, hres, op, hop, hu, hi⟩

/-! ### The worked encodings (R87) -/

/-- Settles O4: each instruction is well-formed and has the word given, so `decode_eq_ok_iff` gives its decoding. -/
theorem workedEncodings : Obligations.WorkedEncodings := by
  intro p hp
  obtain ⟨hencode, hwf⟩ : encode p.1 = p.2 ∧ p.1.wellFormed = true := by
    revert p; decide
  exact ⟨hencode, (decode_eq_ok_iff _ _).mpr ⟨hencode, hwf⟩⟩

/-! ### Illegal words (R78, R80) -/

/-- R80: an illegal word raises `IllegalCommand` while `FATAL = 0`, and nothing else happens. -/
theorem runWord_illegal {w : Word} {r : Illegal} {s : State} (hd : decode w = .error r) (hf : s.fatal = false) :
    runWord w s = .next { s with err := .illegalCommand, errcmd := w, busy := false } := by
  simp [runWord, hd, illegalWord, hf, State.raise]

/-- Settles O5: the reserved bits are the first check, and a refused word is `runWord_illegal`'s. -/
theorem reservedBitsAreIllegal : Obligations.ReservedBitsAreIllegal := by
  intro w s hres
  have hd : decode w = .error .reservedBits := if_pos hres
  exact ⟨hd, runWord_illegal hd⟩

/-- An issue while `BUSY = 0`, with no accesses made meanwhile, executes its word with `BUSY = 1`. -/
theorem issue_alone (w : Word) {s : State} (hb : s.busy = false) :
    issue w [] s = runWord w { s with busy := true } := by
  simp [issue, hb, State.busAccesses]

/-- Settles O7: the step is the issue, and `runWord_illegal` says what it makes of the word. -/
theorem stepRaisesIllegalCommand : Obligations.StepRaisesIllegalCommand := by
  intro s w r rest hh hb hf hd
  rw [step_issue hh, issue_alone w (s := { s with host := rest }) hb]
  exact runWord_illegal hd hf

end Sys2Proof

/-! The statements about the cursor datapath and the byte cursor commands: the offset encodings, the stream orders, what
a value becomes in the buffer and back, what `CLR`, `SETW`, `RD` and `WR` answer, and that a cursor command keeps to its
own cursor. -/

namespace Sys2Proof.Machine

open Sys2Proof.Claims

/-! ### The offset encodings (R101, R102) -/

/-- R102: every offset transform is its own inverse. -/
theorem offsetTransform_involutive (enc : OffsetEncoding) : Function.Involutive (offsetTransform enc) := by
  intro x
  cases enc with
  | none => rfl
  | offset => simp only [offsetTransform]; bv_omega
  | negativeOffset | postNegativeOffset | preNegativeOffset | inverted =>
    exact sub_sub_cancel _ x
  | negative => exact BitVec.not_not

/-- A difference of bytes is the difference of their numbers modulo 256. -/
theorem toNat_sub_byte (x y : Byte) : ((x - y).toNat : Int) = ((x.toNat : Int) - y.toNat) % 256 := by
  rw [BitVec.toNat_sub]
  omega

/-- Settles O29: six rows of R101's table are differences, and the seventh is the complement. -/
theorem offsetTransforms : Obligations.OffsetTransforms := by
  intro x
  have hnot : ((~~~x).toNat : Int) = 255 - (x.toNat : Int) := by
    rw [BitVec.toNat_not]; omega
  exact ⟨rfl, toNat_sub_byte x 128#8, toNat_sub_byte 128#8 x, toNat_sub_byte 128#8 x, toNat_sub_byte 128#8 x,
    toNat_sub_byte 0#8 x, hnot, fun enc => offsetTransform_involutive enc x⟩

/-! ### The stream orders and the target byte (R103 to R108) -/

/-- Settles O30, by the widths. -/
theorem streamOrders : Obligations.StreamOrders := by
  refine ⟨fun w => ?big, fun w => ?little, rfl, rfl, rfl, rfl, fun w => ?mirror⟩
  all_goals cases w <;> rfl

/-- A legal order lists every byte of the value once (R104 to R106). -/
theorem streamOrder_perm {ord : ByteOrder} {w : Width} (h : orderIllegal ord w = false) :
    (streamOrder ord w).Perm (List.range (Width.bytes w)) := by
  cases ord <;> cases w <;> revert h <;> decide

/-- An encoding other than `PRE_NEGATIVE_OFFSET` transforms the least significant byte (R108). -/
theorem targetByte_of_ne {enc : OffsetEncoding} (h : enc ≠ .preNegativeOffset) (ord : ByteOrder) (w : Width) :
    targetByte enc ord w = 0 :=
  if_neg h

/-- `PRE_NEGATIVE_OFFSET` transforms the byte that stands last in the stream (R108). -/
theorem targetByte_preNegativeOffset (ord : ByteOrder) (w : Width) :
    targetByte .preNegativeOffset ord w = (streamOrder ord w).getLastD 0 :=
  if_pos rfl

/-- Settles O31: the last entry of each order's list is R108's row for `PRE_NEGATIVE_OFFSET`. -/
theorem targetByteTable : Obligations.TargetByteTable := by
  refine ⟨fun enc ord w h => targetByte_of_ne h ord w, fun w => ?big, fun w => ?little, rfl, rfl, rfl, rfl⟩
  all_goals rw [targetByte_preNegativeOffset]; cases w <;> rfl

/-! ### Streams (R103, R110, R111) -/

/-- A byte of a list after one of its bytes is transformed. -/
theorem getD_modify (vs : List Byte) (k j : Nat) (f : Byte → Byte) (h : j < vs.length) :
    (vs.modify k f).getD j 0#8 = if j = k then f (vs.getD j 0#8) else vs.getD j 0#8 := by
  simp [h, List.getElem_modify, eq_comm]

theorem toStream_getD (P : List Nat) (vs : List Byte) {i : Nat} (h : i < P.length) :
    (toStream P vs).getD i 0#8 = vs.getD (P.getD i 0) 0#8 := by
  simp [toStream, h]

/-- A run of stores leaves a place that none of them names. -/
theorem getD_foldl_set_of_notMem (xs : List (Nat × Byte)) (vs : List Byte) {j : Nat} (h : j ∉ xs.map Prod.fst) :
    (xs.foldl (fun vs x => vs.set x.1 x.2) vs).getD j 0#8 = vs.getD j 0#8 := by
  induction xs generalizing vs with
  | nil => rfl
  | cons y xs ih =>
    obtain ⟨hy, hxs⟩ := not_or.mp (List.mem_cons.not.mp h)
    rw [List.foldl_cons, ih _ hxs]
    simp [Ne.symm hy]

/-- After a run of stores to different places, each place holds what was stored there. -/
theorem getD_foldl_set_of_mem {xs : List (Nat × Byte)} (vs : List Byte) {x : Nat × Byte}
    (hnodup : (xs.map Prod.fst).Nodup) (hx : x ∈ xs) (hlt : x.1 < vs.length) :
    (xs.foldl (fun vs x => vs.set x.1 x.2) vs).getD x.1 0#8 = x.2 := by
  induction xs generalizing vs with
  | nil => cases hx
  | cons y xs ih =>
    obtain ⟨hy, hxs⟩ := List.nodup_cons.mp hnodup
    rw [List.foldl_cons]
    rcases List.mem_cons.mp hx with rfl | hx
    · rw [getD_foldl_set_of_notMem _ _ hy]
      simp [hlt]
    · exact ih _ hxs hx (by simpa using hlt)

theorem length_foldl_set (xs : List (Nat × Byte)) (vs : List Byte) :
    (xs.foldl (fun vs x => vs.set x.1 x.2) vs).length = vs.length := by
  induction xs generalizing vs with
  | nil => rfl
  | cons y xs ih => rw [List.foldl_cons, ih, List.length_set]

@[simp] theorem fromStream_length (P : List Nat) (bs : List Byte) : (fromStream P bs).length = P.length := by
  rw [fromStream, length_foldl_set, List.length_replicate]

/-- R110: value byte `P[i]` is the stream's byte `i`. -/
theorem fromStream_getD {n : Nat} {P : List Nat} {bs : List Byte} (hP : P.Perm (List.range n)) (hbs : bs.length = n)
    {i : Nat} (hi : i < n) : (fromStream P bs).getD (P.getD i 0) 0#8 = bs.getD i 0#8 := by
  have hlen : P.length = n := by simpa using hP.length_eq
  have hfst : (P.zip bs).map Prod.fst = P := List.map_fst_zip (by omega)
  have hlt : P[i] < P.length := by
    have := hP.mem_iff.mp (List.getElem_mem (h := by omega) : P[i] ∈ P)
    simpa [hlen] using this
  have hmem : (P[i], bs[i]) ∈ P.zip bs :=
    List.mem_iff_getElem.mpr ⟨i, by simp; omega, List.getElem_zip⟩
  have hnodup : ((P.zip bs).map Prod.fst).Nodup := hfst.symm ▸ hP.nodup_iff.mpr List.nodup_range
  have h := getD_foldl_set_of_mem (List.replicate P.length 0#8) hnodup hmem (by simpa using hlt)
  rwa [← List.getD_eq_getElem P 0, ← List.getD_eq_getElem bs 0#8] at h

/-- Reading a stream back in the order it was written gives the value bytes again. -/
theorem fromStream_toStream {n : Nat} {P : List Nat} {vs : List Byte} (hP : P.Perm (List.range n))
    (hvs : vs.length = n) : fromStream P (toStream P vs) = vs := by
  have hlen : P.length = n := by simpa using hP.length_eq
  refine List.ext_getElem (by simp; omega) fun j hj hj' => ?_
  obtain ⟨i, hi, rfl⟩ : ∃ i, ∃ h : i < P.length, P[i] = j :=
    List.mem_iff_getElem.mp (hP.mem_iff.mpr (List.mem_range.mpr (by omega)))
  have h := fromStream_getD (bs := toStream P vs) hP (by simp [toStream, hlen]) (i := i) (by omega)
  rw [toStream_getD P vs hi, List.getD_eq_getElem P 0 hi] at h
  rwa [List.getD_eq_getElem _ _ hj, List.getD_eq_getElem _ _ hj'] at h

/-! ### Assembly and disassembly (R108 to R113) -/

theorem width_bytes_le (w : Width) : Width.bytes w ≤ 8 := by
  cases w <;> decide

/-- Every stream position of a legal order names a byte of the value. -/
theorem streamOrder_getD_lt {ord : ByteOrder} {w : Width} (h : orderIllegal ord w = false) {i : Nat}
    (hi : i < Width.bytes w) : (streamOrder ord w).getD i 0 < Width.bytes w := by
  have hi' : i < (streamOrder ord w).length := by rwa [streamOrder_length h]
  rw [List.getD_eq_getElem _ _ hi']
  exact List.mem_range.mp ((streamOrder_perm h).mem_iff.mp (List.getElem_mem hi'))

/-- Settles O26: assembly stores each stream byte at its place, transforms the target, and joins. -/
theorem assembledBytes : Obligations.AssembledBytes := by
  intro w enc ord bs hord hbs
  have hlen : (fromStream (streamOrder ord w) bs).length = Width.bytes w := by
    rw [fromStream_length, streamOrder_length hord]
  constructor
  · intro i hi j
    have hj : j < Width.bytes w := streamOrder_getD_lt hord hi
    rw [assemble, extract_joinBytes _ j (by have := width_bytes_le w; omega), getD_modify _ _ _ _ (by omega),
      fromStream_getD (streamOrder_perm hord) hbs hi]
  · exact joinBytes_lt _ _ (by rw [List.length_modify, hlen])

/-- Settles O27: disassembly splits, transforms the target, and lists the bytes in the order of the stream. -/
theorem disassembledBytes : Obligations.DisassembledBytes := by
  intro w enc ord v hord
  refine ⟨disassemble_length enc v hord, fun i hi => ?_⟩
  intro j
  have hj : j < Width.bytes w := streamOrder_getD_lt hord hi
  rw [disassemble, toStream_getD _ _ (by rwa [streamOrder_length hord]),
    getD_modify _ _ _ _ (by rwa [splitBytes_length]), splitBytes_getD _ _ _ hj]

/-- Assembling a value's stream gives the value's low bits: the order is undone, the target is transformed back (R102),
and the bytes are joined. -/
theorem assemble_disassemble {w : Width} (enc : OffsetEncoding) {ord : ByteOrder} (v : DWord)
    (h : orderIllegal ord w = false) :
    assemble w enc ord (disassemble w enc ord v) = (v.setWidth (8 * Width.bytes w)).setWidth 64 := by
  rw [assemble, disassemble, fromStream_toStream (streamOrder_perm h) (by simp), List.modify_modify_eq,
    (offsetTransform_involutive enc).comp_self, List.modify_id, joinBytes_splitBytes]

/-- Widening sees only the value's low bits. -/
theorem extend_setWidth (signed : Bool) (w : Width) (v : DWord) :
    extend signed w ((v.setWidth (8 * Width.bytes w)).setWidth 64) = extend signed w v := by
  have h : ((v.setWidth (8 * Width.bytes w)).setWidth 64).setWidth (8 * Width.bytes w)
      = v.setWidth (8 * Width.bytes w) := by
    rw [BitVec.setWidth_setWidth_of_le _ (by have := width_bytes_le w; omega), BitVec.setWidth_eq]
  simp only [extend, h]

/-! ### The byte cursor commands (R120 to R126) -/

/-- Settles O22: `CLR` makes no check but the lock's. -/
theorem clrResult : Obligations.ClrResult :=
  fun _ _ hf => exec_completes hf rfl (Nat.zero_le _)

/-- Settles O23: the hypotheses are `SETW`'s checks. -/
theorem setwResult : Obligations.SetwResult :=
  fun s c hf hmode hlo hhi => exec_completes hf ((setw_passes_iff s c).mpr ⟨hmode, hlo, hhi⟩) (Nat.zero_le _)

/-- Settles O24: the hypotheses are `RD`'s checks, and that its bytes stand in the buffer. -/
theorem rdResult : Obligations.RdResult :=
  fun s c w signed enc ord hf hmode hord hdata hbuf =>
    exec_completes hf ((rd_passes_iff s c w signed enc ord).mpr ⟨hmode, hord, hdata⟩) hbuf

theorem wr_completes {s : State} {c : CursorId} {w : Width} (enc : OffsetEncoding) {ord : ByteOrder}
    (hf : s.fatal = false) (hmode : (s.cursor c).mode = .off) (hord : orderIllegal ord w = false)
    (hroom : (s.cursor c).wpos.toNat + Width.bytes w ≤ s.params.bufSize) :
    exec (.wr c w enc ord) s = .next (effectOf s (.wr c w enc ord)).complete :=
  exec_completes hf ((wr_passes_iff s c w enc ord).mpr ⟨hmode, hord, hroom⟩) (Nat.zero_le _)

/-- The bytes of its own buffer that `WR` leaves: its stream from `WPOS` on, and the others as they were. -/
theorem byteAt_effectOf_wr (s : State) (c : CursorId) {w : Width} (enc : OffsetEncoding) {ord : ByteOrder} (q : Nat)
    (h : orderIllegal ord w = false) :
    (effectOf s (.wr c w enc ord)).byteAt c q =
      if (s.cursor c).wpos.toNat ≤ q ∧ q < (s.cursor c).wpos.toNat + Width.bytes w then
        (disassemble w enc ord s.din).getD (q - (s.cursor c).wpos.toNat) 0#8
      else s.byteAt c q := by
  simp only [effectOf]
  rw [byteAt_setCursor_sameBuf (h := by rfl), byteAt_writeBytes, disassemble_length enc s.din h]

/-- Settles O25: `byteAt_effectOf_wr` gives every byte, and `effectOf_wr` the rest of the state. -/
theorem wrResult : Obligations.WrResult := by
  intro s c w enc ord p hf hmode hord hroom
  refine ⟨_, wr_completes enc hf hmode hord hroom, fun i hi => ?written, fun q hq => ?others, ?frame⟩
  case written =>
    rw [byteAt_complete, byteAt_effectOf_wr s c enc _ hord, if_pos (by omega), Nat.add_sub_cancel_left]
  case others =>
    rw [byteAt_complete, byteAt_effectOf_wr s c enc _ hord, if_neg (by omega)]
  case frame =>
    rw [effectOf_wr, complete_cursor, setCursor_cursor_same]
    rfl

/-- The bytes `WR` wrote, read from where it began. -/
theorem readBytes_effectOf_wr (s : State) (c : CursorId) {w : Width} (enc : OffsetEncoding) {ord : ByteOrder}
    (h : orderIllegal ord w = false) :
    (effectOf s (.wr c w enc ord)).readBytes c (s.cursor c).wpos.toNat (Width.bytes w) =
      disassemble w enc ord s.din := by
  have hlen := disassemble_length enc s.din h
  refine List.ext_getElem (by simp [hlen]) fun i hi hi' => ?_
  rw [← List.getD_eq_getElem _ 0#8 hi, readBytes_getD _ _ _ _ _ (by omega), byteAt_effectOf_wr s c enc _ h,
    if_pos (by omega), Nat.add_sub_cancel_left, List.getD_eq_getElem _ _ hi']

/-- A reader sees the same bytes after any change of its cursor's positions or mode. -/
theorem readBytes_setCursor_sameBuf (s : State) (c : CursorId) (x : Cursor) (h : x.buf = (s.cursor c).buf)
    (p n : Nat) : (s.setCursor c x).readBytes c p n = s.readBytes c p n :=
  List.map_congr_left fun _ _ => byteAt_setCursor_sameBuf s c c x h _

theorem readBytes_complete (s : State) (c : CursorId) (p n : Nat) :
    s.complete.readBytes c p n = s.readBytes c p n :=
  List.map_congr_left fun _ _ => byteAt_complete s c _

/-- `RD` from a position `p` that `RPOS` is set to, where the data reaches far enough. -/
theorem rd_from_position {s : State} {c : CursorId} {w : Width} (signed : Bool) (enc : OffsetEncoding) {ord : ByteOrder}
    {p : BitVec 13} (hf : s.fatal = false) (hmode : (s.cursor c).mode = .off) (hord : orderIllegal ord w = false)
    (hdata : p.toNat + Width.bytes w ≤ (s.cursor c).wpos.toNat) (hbuf : p.toNat + Width.bytes w ≤ s.params.bufSize) :
    ∃ u, exec (.rd c w signed enc ord) (s.setCursor c { s.cursor c with rpos := p }) = .next u ∧ u.err = .ok ∧
      u.dout = extend signed w (assemble w enc ord (s.readBytes c p.toNat (Width.bytes w))) := by
  have hcursor := setCursor_cursor_same s c { s.cursor c with rpos := p }
  refine ⟨_, exec_completes hf ((rd_passes_iff _ c w signed enc ord).mpr ?_) ?_, rfl, ?_⟩
  · rw [hcursor]; exact ⟨hmode, hord, hdata⟩
  · rw [reachOf, hcursor]; exact hbuf
  · rw [complete_dout, effectOf, hcursor, readBytes_setCursor_sameBuf (h := by rfl)]

/-- `WR` leaves the positions and the mode of its cursor, but for `WPOS`. -/
theorem cursor_effectOf_wr (s : State) (c : CursorId) (w : Width) (enc : OffsetEncoding) (ord : ByteOrder) :
    (effectOf s (.wr c w enc ord)).cursor c =
      { s.cursor c with
        buf := ((effectOf s (.wr c w enc ord)).cursor c).buf
        wpos := BitVec.ofNat 13 ((s.cursor c).wpos.toNat + Width.bytes w) } := by
  rw [effectOf_wr, setCursor_cursor_same]

/-- Settles O28: `RD` finds the stream that `WR` wrote, and `assemble_disassemble` undoes it. -/
theorem writeThenReadGivesTheValue : Obligations.WriteThenReadGivesTheValue := by
  intro s c w signed enc ord p v hf hmode hord hroom hfits
  obtain ⟨hfatal, hparams⟩ := effectOf_keeps s (.wr c w enc ord)
  have hcursor := (complete_cursor _ c).trans (cursor_effectOf_wr s c w enc ord)
  have hread : (effectOf s (.wr c w enc ord)).complete.readBytes c p.toNat (Width.bytes w) =
      disassemble w enc ord s.din :=
    (readBytes_complete _ c _ _).trans (readBytes_effectOf_wr s c enc hord)
  have hwpos : ((effectOf s (.wr c w enc ord)).complete.cursor c).wpos.toNat = p.toNat + Width.bytes w := by
    rw [hcursor]; exact Nat.mod_eq_of_lt hfits
  obtain ⟨u, hu, herr, hdout⟩ := rd_from_position (s := (effectOf s (.wr c w enc ord)).complete) (c := c) (p := p)
    signed enc (hfatal.trans hf) (by rw [hcursor]; exact hmode) hord hwpos.ge
    (by rw [complete_params, hparams]; exact hroom)
  refine ⟨_, u, wr_completes enc hf hmode hord hroom, hu, herr, ?_⟩
  rw [hdout, hread, assemble_disassemble enc s.din hord, extend_setWidth]
  rfl

/-! ### A cursor command keeps to its own cursor (R124) -/

/-- What a cursor command must neither read nor write: the other cursor, the ciphers and the keys. -/
structure Outside where
  cursor : Cursor
  k0 : Cipher
  k1 : Cipher
  key0 : Word
  key1 : Word
  key2 : Word
  key3 : Word

/-- A state with all that lies outside cursor `c` replaced. -/
def State.withOutside (s : State) (c : CursorId) (o : Outside) : State :=
  { s.setCursor (otherCursor c) o.cursor with
    k0 := o.k0, k1 := o.k1, key0 := o.key0, key1 := o.key1, key2 := o.key2, key3 := o.key3 }

section
variable (s : State) (c : CursorId) (o : Outside)

@[simp] theorem withOutside_din : (s.withOutside c o).din = s.din := rfl
@[simp] theorem withOutside_fatal : (s.withOutside c o).fatal = s.fatal := rfl
@[simp] theorem withOutside_params : (s.withOutside c o).params = s.params := rfl
@[simp] theorem withOutside_resetCount : (s.withOutside c o).resetCount = s.resetCount := rfl

@[simp] theorem withOutside_cursor : (s.withOutside c o).cursor c = s.cursor c := by
  cases c <;> rfl

@[simp] theorem setCursor_withOutside (x : Cursor) :
    (s.withOutside c o).setCursor c x = (s.setCursor c x).withOutside c o := by
  cases c <;> rfl

theorem raise_withOutside (e : ErrCode) (w : Word) :
    (s.withOutside c o).raise e w = (s.raise e w).withOutside c o := by
  cases c <;> rfl

theorem complete_withOutside : (s.withOutside c o).complete = s.complete.withOutside c o := by
  cases c <;> rfl

theorem withDout_withOutside (d : DWord) :
    { s.withOutside c o with dout := d } = State.withOutside { s with dout := d } c o := by
  cases c <;> rfl

@[simp] theorem byteAt_withOutside (p : Nat) : (s.withOutside c o).byteAt c p = s.byteAt c p :=
  byteAt_congr (congrArg Cursor.buf (withOutside_cursor s c o)) (withOutside_resetCount s c o) p

@[simp] theorem readBytes_withOutside (p n : Nat) : (s.withOutside c o).readBytes c p n = s.readBytes c p n :=
  List.map_congr_left fun _ _ => byteAt_withOutside s c o _

@[simp] theorem readBits_withOutside (p n : Nat) : (s.withOutside c o).readBits c p n = s.readBits c p n := by
  induction n generalizing p with
  | zero => rfl
  | succ n ih => rw [State.readBits, State.readBits, ih, State.bitAt, State.bitAt, byteAt_withOutside]

theorem putByte_withOutside (p : Nat) (v : Byte) :
    (s.withOutside c o).putByte c p v = (s.putByte c p v).withOutside c o := by
  rw [State.putByte, State.putByte, withOutside_cursor, setCursor_withOutside]

@[simp] theorem writeBytes_withOutside (p : Nat) (bs : List Byte) :
    (s.withOutside c o).writeBytes c p bs = (s.writeBytes c p bs).withOutside c o := by
  induction bs generalizing s p with
  | nil => rfl
  | cons b bs ih => rw [State.writeBytes, State.writeBytes, putByte_withOutside, ih]

@[simp] theorem writeBits_withOutside (p n : Nat) (v : DWord) :
    (s.withOutside c o).writeBits c p n v = (s.writeBits c p n v).withOutside c o := by
  induction n generalizing s p with
  | zero => rfl
  | succ n ih =>
    rw [State.writeBits, State.writeBits, State.putBit, State.putBit, byteAt_withOutside, putByte_withOutside, ih]

end

section
variable {i : Instr} {c : CursorId} (hc : cursorOf i = some c) (s : State) (o : Outside)
include hc

/-- The checks of a cursor command see its own cursor, `DIN` and the capacity. -/
theorem checksFor_withOutside : checksFor (s.withOutside c o) i = checksFor s i := by
  cases i
  case cseed | cnext | cdec | cenc => cases hc
  case setw =>
    cases hc
    simp only [checksFor, State.modeCheck, withOutside_cursor, withOutside_din, withOutside_params]
    rfl
  all_goals cases hc; simp only [checksFor, State.modeCheck, withOutside_cursor, withOutside_params]

theorem reachOf_withOutside : reachOf (s.withOutside c o) i = reachOf s i := by
  cases i
  case rd | bwend | rbits => cases hc; simp only [reachOf, withOutside_cursor]
  all_goals rfl

/-- The effect of a cursor command sees and changes its own cursor, and may write `DOUT`. -/
theorem effectOf_withOutside : effectOf (s.withOutside c o) i = (effectOf s i).withOutside c o := by
  cases i
  case cseed | cnext | cdec | cenc => cases hc
  case rd | rbits =>
    cases hc
    simp only [effectOf, withOutside_cursor, setCursor_withOutside, readBytes_withOutside, readBits_withOutside,
      withDout_withOutside]
  all_goals
    cases hc
    simp only [effectOf, withOutside_cursor, withOutside_din, setCursor_withOutside, writeBytes_withOutside,
      writeBits_withOutside]

end

/-- A change of the state that a command's checks do not see, and that its effect and its errors commute with, commutes
with the command. -/
theorem exec_commutes {f : State → State} {i : Instr} {s : State} (hfatal : (f s).fatal = s.fatal)
    (hparams : (f s).params = s.params) (hchecks : checksFor (f s) i = checksFor s i)
    (hreach : reachOf (f s) i = reachOf s i) (hraise : ∀ e w, (f s).raise e w = f (s.raise e w))
    (heffect : (effectOf (f s) i).complete = f (effectOf s i).complete) :
    exec i (f s) = onNext f (exec i s) := by
  rcases exec_cases i s with ⟨hf, he⟩ | ⟨hf, e, hc, he⟩ | ⟨hf, hc, hr, he⟩ | ⟨hf, hc, hr, he⟩ <;> rw [he, onNext]
  · rw [exec_eq, command_fatal _ _ _ (hfatal.trans hf), hraise]
  · rw [exec_eq, command_error _ _ (hfatal.trans hf) (hchecks ▸ hc), hraise]
  · rw [exec_completes (hfatal.trans hf) (hchecks ▸ hc) (by rwa [hreach, hparams]), heffect]
  · rw [exec_eq, command_effect _ _ (hfatal.trans hf) (hchecks ▸ hc)]
    rcases withinBuffer_cases (f s) (reachOf (f s) i) (effectOf (f s) i) with ⟨hr', -⟩ | ⟨-, hw⟩
    · rw [hreach, hparams] at hr'
      omega
    · exact hw

/-- Settles O20: the checks do not see what lies outside the cursor, and the effect commutes with replacing it. -/
theorem cursorCommandTouchesOnlyItsCursor : Obligations.CursorCommandTouchesOnlyItsCursor := by
  intro i c hc x a b q0 q1 q2 q3 s
  let o : Outside := ⟨x, a, b, q0, q1, q2, q3⟩
  exact exec_commutes (f := fun t => t.withOutside c o) rfl rfl (checksFor_withOutside hc s o)
    (reachOf_withOutside hc s o) (raise_withOutside s c o)
    (by rw [effectOf_withOutside hc, complete_withOutside])

end Sys2Proof.Machine

/-! The statements about the bit cursor commands: what `BWBEGIN`, `WBITS`, `BWEND`, `BRBEGIN`, `RBITS` and `BREND`
answer, that `RBITS` reads back what `WBITS` wrote, that the byte-wise formulation of the bit write agrees with the bit
loop, and which commands a cursor's mode accepts. -/

namespace Sys2Proof.Machine

open Sys2Proof.Claims

/-! ### The mode table (R150) -/

/-- Levels 4 to 6 of R218 are no mode errors. -/
theorem later_levels_ne_modeViolation (s : State) (i : Instr) :
    ((fieldError i).or (cipherError s i)).or (boundsError s i) ≠ some .modeViolation := by
  cases i
  case clr | bwbegin | bwend | brbegin | brend => simp [fieldError, cipherError, boundsError]
  case setw | rd | wr | wbits | rbits | cseed | cnext | cdec | cenc =>
    simp only [fieldError, cipherError, boundsError]
    split_ifs <;> simp

/-- Level 3 of R218 is the mode table: without the lock, a command reports `ModeViolation` exactly where the table
refuses it. -/
theorem firstError_eq_modeViolation_iff {s : State} (hf : s.fatal = false) (i : Instr) :
    firstError (checksFor s i) = some .modeViolation ↔ modeForbids s i = true := by
  rw [← reportedError_eq_firstError hf, reportedError, if_neg (by simp [hf])]
  split_ifs with hm
  · simp [hm]
  · simp [hm, later_levels_ne_modeViolation s i, -Option.or_eq_some_iff]

theorem raise_modeViolation (s : State) (w : Word) :
    s.raise .modeViolation w = { s with err := .modeViolation, errcmd := w, busy := false } := by
  simp [State.raise]

/-- A state with the mode of cursor `c` replaced. -/
def State.withMode (s : State) (c : CursorId) (m : Mode) : State := s.setCursor c { s.cursor c with mode := m }

/-- What lies outside cursor `c` in a state. -/
def State.outside (s : State) (c : CursorId) : Outside :=
  ⟨s.cursor (otherCursor c), s.k0, s.k1, s.key0, s.key1, s.key2, s.key3⟩

@[simp] theorem withOutside_outside (s : State) (c : CursorId) : s.withOutside c (s.outside c) = s := by
  cases c <;> rfl

/-- A new mode of the other cursor is a new outside, whatever stood inside. -/
theorem withMode_withOutside (s t : State) (c : CursorId) (m : Mode) :
    (t.withOutside c (s.outside c)).withMode (otherCursor c) m =
      t.withOutside c ((s.withMode (otherCursor c) m).outside c) := by
  cases c <;> rfl

theorem withMode_eq_withOutside (s : State) (c : CursorId) (m : Mode) :
    s.withMode (otherCursor c) m = s.withOutside c ((s.withMode (otherCursor c) m).outside c) := by
  rw [← withMode_withOutside, withOutside_outside]

theorem onNext_onNext (f g : State → State) (r : Result) : onNext f (onNext g r) = onNext (f ∘ g) r := by
  cases r <;> rfl

/-- R124, with all that lies outside the cursor as one. -/
theorem exec_withOutside {i : Instr} {c : CursorId} (hc : cursorOf i = some c) (s : State) (o : Outside) :
    exec i (s.withOutside c o) = onNext (fun t => t.withOutside c o) (exec i s) :=
  cursorCommandTouchesOnlyItsCursor i c hc o.cursor o.k0 o.k1 o.key0 o.key1 o.key2 o.key3 s

/-- A cursor command and a new mode of the other cursor commute: the command answers the outside it found. -/
theorem exec_withMode_of_cursorOf {i : Instr} {c : CursorId} (hc : cursorOf i = some c) (s : State) (m : Mode) :
    exec i (s.withMode (otherCursor c) m) = onNext (fun t => t.withMode (otherCursor c) m) (exec i s) := by
  have hself : exec i s = onNext (fun t => t.withOutside c (s.outside c)) (exec i s) := by
    simpa using exec_withOutside hc s (s.outside c)
  calc exec i (s.withMode (otherCursor c) m)
      = onNext (fun t => t.withOutside c ((s.withMode (otherCursor c) m).outside c)) (exec i s) := by
        rw [withMode_eq_withOutside, exec_withOutside hc, ← withMode_eq_withOutside]
    _ = onNext (fun t => t.withMode (otherCursor c) m)
          (onNext (fun t => t.withOutside c (s.outside c)) (exec i s)) := by
        rw [onNext_onNext]
        congr 1
        exact funext fun t => (withMode_withOutside s t c m).symm
    _ = onNext (fun t => t.withMode (otherCursor c) m) (exec i s) := by rw [← hself]

section
variable (s : State) (c : CursorId) (m : Mode)

theorem withMode_cipher (k : CipherId) : (s.withMode c m).cipher k = s.cipher k :=
  setCursor_cipher s c _ k

theorem raise_withMode (e : ErrCode) (w : Word) : (s.withMode c m).raise e w = (s.raise e w).withMode c m := by
  cases c <;> rfl

theorem complete_withMode : (s.withMode c m).complete = s.complete.withMode c m := by
  cases c <;> rfl

theorem setCipher_withMode (k : CipherId) (x : Cipher) :
    (s.withMode c m).setCipher k x = (s.setCipher k x).withMode c m := by
  cases c <;> rfl

theorem withDout_withMode (d : DWord) :
    { s.withMode c m with dout := d } = State.withMode { s with dout := d } c m := by
  cases c <;> rfl

/-- The effect of a cipher command sees and changes ciphers, `DIN`, `DOUT` and the keys. -/
theorem effectOf_withMode {i : Instr} (hi : cursorOf i = none) :
    effectOf (s.withMode c m) i = (effectOf s i).withMode c m := by
  cases i
  case cseed k =>
    simp only [effectOf, withMode_cipher, setCipher_withMode]
    rfl
  case cnext | cdec | cenc =>
    simp only [effectOf, withMode_cipher, setCipher_withMode]
    exact withDout_withMode _ c m _
  all_goals cases hi

end

/-- A cipher command sees no mode (R150). -/
theorem exec_withMode_of_cursorOf_none {i : Instr} (hi : cursorOf i = none) (s : State) (c : CursorId) (m : Mode) :
    exec i (s.withMode c m) = onNext (fun t => t.withMode c m) (exec i s) := by
  refine exec_commutes (f := fun t => t.withMode c m) rfl rfl ?checks ?reach (raise_withMode s c m) ?effect
  case checks | reach => cases i <;> cases hi <;> simp only [checksFor, reachOf, withMode_cipher]
  case effect => rw [effectOf_withMode s c m hi, complete_withMode]

theorem eq_otherCursor {c c' : CursorId} (h : c' ≠ c) : c = otherCursor c' := by
  revert h; cases c <;> cases c' <;> decide

/-- Settles O17: the mode check is R150's table, and a mode outside the selected cursor is outside the command. -/
theorem modeTableDecides : Obligations.ModeTableDecides := by
  refine ⟨fun i s c hc hf => ?table, fun i s c m hc => ?others⟩
  case table =>
    have hiff := firstError_eq_modeViolation_iff hf i
    simp only [modeForbids, hc, Bool.not_eq_true'] at hiff
    split_ifs with hm
    · intro t ht herr
      rcases exec_next_cases ht with ⟨hf', -⟩ | ⟨-, e, he, rfl⟩ | ⟨-, -, -, rfl⟩
      · simp [hf] at hf'
      · obtain rfl : e = .modeViolation := herr
        simp [hiff.mp he] at hm
      · cases herr
    · rw [exec_eq, command_error _ _ hf (hiff.mpr (by simpa using hm)), raise_modeViolation]
  case others =>
    cases hi : cursorOf i with
    | none => exact exec_withMode_of_cursorOf_none hi s c m
    | some c' =>
      obtain rfl := eq_otherCursor (c := c) (c' := c') (by rintro rfl; exact hc hi)
      exact exec_withMode_of_cursorOf hi s m

/-! ### Entering and leaving the bit modes (R144, R146, R147, R149) -/

theorem bwbegin_passes_iff (s : State) (c : CursorId) :
    firstError (checksFor s (.bwbegin c)) = none ↔ (s.cursor c).mode = .off := by
  simp [checksFor, State.modeCheck, firstError_cons_eq_none, -firstError_cons]

theorem brbegin_passes_iff (s : State) (c : CursorId) :
    firstError (checksFor s (.brbegin c)) = none ↔ (s.cursor c).mode = .off := by
  simp [checksFor, State.modeCheck, firstError_cons_eq_none, -firstError_cons]

/-- The bit position of a byte position fits `BITPOS`. -/
theorem toNat_bitpos_of_byte (x : BitVec 13) : (BitVec.ofNat 16 (8 * x.toNat)).toNat = 8 * x.toNat := by
  rw [BitVec.toNat_ofNat]; omega

/-- Settles O32: the mode is `BWBEGIN`'s only check. -/
theorem bwbeginResult : Obligations.BwbeginResult := by
  intro s c hf hmode
  refine ⟨_, exec_completes hf ((bwbegin_passes_iff s c).mpr hmode) (Nat.zero_le _), ?_, ?_⟩ <;>
    rw [complete_cursor, effectOf, setCursor_cursor_same]
  · exact toNat_bitpos_of_byte _
  · rfl

/-- Settles O35: the mode is `BRBEGIN`'s only check. -/
theorem brbeginResult : Obligations.BrbeginResult := by
  intro s c hf hmode
  refine ⟨_, exec_completes hf ((brbegin_passes_iff s c).mpr hmode) (Nat.zero_le _), ?_, ?_⟩ <;>
    rw [complete_cursor, effectOf, setCursor_cursor_same]
  · exact toNat_bitpos_of_byte _
  · rfl

/-- Settles O37: the mode is `BREND`'s only check. -/
theorem brendResult : Obligations.BrendResult := by
  intro s c hf hmode
  rw [exec_completes hf ((brend_passes_iff s c).mpr hmode) (Nat.zero_le _), effectOf, ceil8_eq]
  rfl

/-! ### Writing and reading a field (R145, R146, R148) -/

theorem bitCountIllegal_eq_false {n : Nat} (h1 : 1 ≤ n) (h32 : n ≤ 32) : bitCountIllegal n = false := by
  rw [← Bool.not_eq_true, bitCountIllegal_iff]; omega

theorem bitAt_setCursor_sameBuf (s : State) (c : CursorId) (x : Cursor) (h : x.buf = (s.cursor c).buf) (q : Nat) :
    (s.setCursor c x).bitAt c q = s.bitAt c q :=
  bitAt_congr (byteAt_setCursor_sameBuf s c c x h) q

@[simp] theorem bitAt_complete (s : State) (c : CursorId) (q : Nat) : s.complete.bitAt c q = s.bitAt c q :=
  bitAt_congr (byteAt_complete s c) q

/-- The bits of its own buffer that `WBITS` leaves. -/
theorem bitAt_effectOf_wbits (s : State) (c : CursorId) (n b : Nat) :
    (effectOf s (.wbits c n)).bitAt c b =
      if (s.cursor c).bitpos.toNat ≤ b ∧ b < (s.cursor c).bitpos.toNat + n then
        s.din.getLsbD ((s.cursor c).bitpos.toNat + n - 1 - b)
      else s.bitAt c b := by
  simp only [effectOf]
  rw [bitAt_setCursor_sameBuf (h := by rfl), bitAt_writeBits]

/-- The bits of its own buffer that `BWEND` leaves: zeros up to the next whole byte. -/
theorem bitAt_effectOf_bwend (s : State) (c : CursorId) (b : Nat) :
    (effectOf s (.bwend c)).bitAt c b =
      if (s.cursor c).bitpos.toNat ≤ b ∧ b < 8 * (((s.cursor c).bitpos.toNat + 7) / 8) then false
      else s.bitAt c b := by
  simp only [effectOf]
  rw [bitAt_setCursor_sameBuf (h := by rfl), bitAt_writeBits, add_padLength, BitVec.getLsbD_zero]

theorem wbits_completes {s : State} {c : CursorId} {n : Nat} (hf : s.fatal = false) (hmode : (s.cursor c).mode = .bitw)
    (h1 : 1 ≤ n) (h32 : n ≤ 32) (hroom : (s.cursor c).bitpos.toNat + n ≤ 8 * s.params.bufSize) :
    exec (.wbits c n) s = .next (effectOf s (.wbits c n)).complete :=
  exec_completes hf ((wbits_passes_iff s c n).mpr ⟨hmode, bitCountIllegal_eq_false h1 h32, hroom⟩) (Nat.zero_le _)

/-- Settles O33: `bitAt_effectOf_wbits` gives every bit, and `effectOf_wbits` the rest of the state. -/
theorem wbitsResult : Obligations.WbitsResult := by
  intro s c n q hf hmode h1 h32 hroom
  refine ⟨_, wbits_completes hf hmode h1 h32 hroom, fun k hk => ?field, fun b hb => ?bits, fun p hp => ?bytes, ?frame⟩
  case field =>
    rw [bitAt_complete, bitAt_effectOf_wbits, if_pos (by omega)]
    congr 1
    omega
  case bits =>
    rw [bitAt_complete, bitAt_effectOf_wbits, if_neg (by omega)]
  case bytes =>
    rw [byteAt_complete, byteAt_effectOf s (.wbits c n) c p fun _ => hp]
  case frame =>
    rw [effectOf_wbits, complete_cursor, setCursor_cursor_same]
    rfl

/-- Settles O34: `bitAt_effectOf_bwend` gives every bit, and `effectOf_bwend` the rest of the state. -/
theorem bwendResult : Obligations.BwendResult := by
  intro s c q hf hmode hroom
  have hreach : reachOf s (.bwend c) ≤ s.params.bufSize := by
    simp only [reachOf, ceil8_eq]
    split_ifs <;> omega
  refine ⟨_, exec_completes hf ((bwend_passes_iff s c).mpr hmode) hreach, fun b hlo hhi => ?pad, fun b hb => ?bits,
    fun p hp => ?bytes, ?frame⟩
  case pad =>
    rw [bitAt_complete, bitAt_effectOf_bwend, if_pos ⟨hlo, hhi⟩]
  case bits =>
    rw [bitAt_complete, bitAt_effectOf_bwend, if_neg (by omega)]
  case bytes =>
    have hspares : sparesByte s c p (.bwend c) := fun _ => by rw [add_padLength]; omega
    rw [byteAt_complete, byteAt_effectOf s (.bwend c) c p hspares]
  case frame =>
    rw [effectOf_bwend, complete_cursor, setCursor_cursor_same, ceil8_eq]
    rfl

/-- A field of `n` bits is a number below `2 ^ n`. -/
theorem readBits_lt (s : State) (c : CursorId) (p : Nat) {n : Nat} (hn : n ≤ 64) :
    (s.readBits c p n).toNat < 2 ^ n := by
  refine Nat.lt_pow_two_of_testBit _ fun j hj => ?_
  rw [BitVec.testBit_toNat, getLsbD_readBits s c p n j hn]
  simp [Nat.not_lt.mpr hj]

/-- Bits that stand most significant first are the number they are the low bits of (R140). -/
theorem toNat_readBits_of_bits {s : State} {c : CursorId} {p n : Nat} {v : DWord} (hn : n ≤ 64)
    (h : ∀ k, k < n → s.bitAt c (p + k) = v.getLsbD (n - 1 - k)) : (s.readBits c p n).toNat = v.toNat % 2 ^ n := by
  refine Nat.eq_of_testBit_eq fun j => ?_
  rw [BitVec.testBit_toNat, getLsbD_readBits s c p n j hn, Nat.testBit_mod_two_pow, BitVec.testBit_toNat]
  by_cases hj : j < n
  · rw [show p + n - 1 - j = p + (n - 1 - j) by omega, h _ (by omega), show n - 1 - (n - 1 - j) = j by omega]
  · simp [hj]

theorem rbits_completes {s : State} {c : CursorId} {n : Nat} (hf : s.fatal = false) (hmode : (s.cursor c).mode = .bitr)
    (h1 : 1 ≤ n) (h32 : n ≤ 32) (hdata : (s.cursor c).bitpos.toNat + n ≤ 8 * (s.cursor c).wpos.toNat)
    (hbuf : (s.cursor c).bitpos.toNat + n ≤ 8 * s.params.bufSize) :
    exec (.rbits c n) s = .next (effectOf s (.rbits c n)).complete :=
  exec_completes hf ((rbits_passes_iff s c n).mpr ⟨hmode, bitCountIllegal_eq_false h1 h32, hdata⟩)
    (by rw [reachOf, ceil8_eq]; omega)

/-- Settles O36: `getLsbD_readBits` gives `DOUT`, and nothing else but `BITPOS` moves. -/
theorem rbitsResult : Obligations.RbitsResult := by
  intro s c n q hf hmode h1 h32 hdata hbuf
  refine ⟨_, rbits_completes hf hmode h1 h32 hdata hbuf, fun k hk => ?bits, ?zeros, rfl⟩
  case bits =>
    rw [complete_dout, effectOf, getLsbD_readBits _ _ _ _ _ (by omega), decide_eq_true (by omega), Bool.true_and]
    congr 1
    omega
  case zeros => exact readBits_lt s c q (by omega)

/-- A reader sees the same field after any change of its cursor's positions or mode. -/
theorem readBits_setCursor_sameBuf (s : State) (c : CursorId) (x : Cursor) (h : x.buf = (s.cursor c).buf) (p n : Nat) :
    (s.setCursor c x).readBits c p n = s.readBits c p n := by
  induction n generalizing p with
  | zero => rfl
  | succ n ih => rw [State.readBits, State.readBits, ih, bitAt_setCursor_sameBuf s c x h]

/-- `RBITS` from a bit position `q`, of a cursor put in read mode there. -/
theorem rbits_from_position {s : State} {c : CursorId} {n : Nat} {q : BitVec 16} {wpos : BitVec 13}
    (hf : s.fatal = false) (h1 : 1 ≤ n) (h32 : n ≤ 32) (hdata : q.toNat + n ≤ 8 * wpos.toNat)
    (hbuf : q.toNat + n ≤ 8 * s.params.bufSize) :
    ∃ u, exec (.rbits c n) (s.setCursor c { s.cursor c with mode := .bitr, bitpos := q, wpos := wpos }) = .next u ∧
      u.err = .ok ∧ u.dout = s.readBits c q.toNat n := by
  have hcursor := setCursor_cursor_same s c { s.cursor c with mode := .bitr, bitpos := q, wpos := wpos }
  refine ⟨_, rbits_completes hf ?mode h1 h32 ?data ?room, rfl, ?dout⟩
  case mode => rw [hcursor]
  case data => rw [hcursor]; exact hdata
  case room => rw [hcursor]; exact hbuf
  case dout => rw [complete_dout, effectOf, hcursor, readBits_setCursor_sameBuf (h := by rfl)]

/-- Settles O38: `RBITS` finds the bits that `WBITS` wrote. -/
theorem bitFieldRoundTrip : Obligations.BitFieldRoundTrip := by
  intro s c n q hf hmode h1 h32 hroom
  obtain ⟨hfatal, hparams⟩ := effectOf_keeps s (.wbits c n)
  refine ⟨_, wbits_completes hf hmode h1 h32 hroom, fun wpos hdata => ?_⟩
  obtain ⟨u, hu, herr, hdout⟩ := rbits_from_position (s := (effectOf s (.wbits c n)).complete) (c := c)
    (hfatal.trans hf) h1 h32 hdata (by rw [complete_params, hparams]; exact hroom)
  refine ⟨u, hu, herr, ?_⟩
  have hq : q.toNat = (s.cursor c).bitpos.toNat := rfl
  rw [hdout]
  refine toNat_readBits_of_bits (by omega) fun k hk => ?_
  rw [bitAt_complete, bitAt_effectOf_wbits, if_pos (by omega)]
  congr 1
  omega

/-! ### The byte-wise formulation of the bit write (R151) -/

/-- R141's mask `i` has the `i` low bits set. -/
theorem getLsbD_bitMask {i : Nat} (hi : i < 32) (j : Nat) : (bitMask i).getLsbD j = decide (j < i) := by
  have hpow : 2 ^ i < 2 ^ 32 := Nat.pow_lt_pow_right (by decide) hi
  have hpos : 0 < 2 ^ i := Nat.two_pow_pos i
  have htoNat : (bitMask i).toNat = 2 ^ i - 1 := by
    have hone : (1#32 <<< i).toNat = 2 ^ i := by
      rw [BitVec.toNat_shiftLeft, BitVec.toNat_ofNat, Nat.one_mod_eq_one.mpr (by decide), Nat.shiftLeft_eq, one_mul,
        Nat.mod_eq_of_lt hpow]
    rw [bitMask, BitVec.toNat_sub_of_le (by rw [BitVec.le_def, hone]; exact hpos), hone]
    rfl
  rw [← BitVec.testBit_toNat, htoNat, Nat.testBit_two_pow_sub_one]

/-- A byte with `off` free bits at its low end, the first `m` of which take the low `m` bits of `x`. -/
def fieldByte (old : Byte) (off m : Nat) (x : Word) : Byte :=
  ((old.setWidth 32 &&& ~~~(bitMask m <<< (off - m))) ||| ((x &&& bitMask m) <<< (off - m))).setWidth 8

theorem bitOfByte_fieldByte (old : Byte) {off m : Nat} (x : Word) (hm : m ≤ off) (hoff : off ≤ 8) {p : Nat}
    (hp : p < 8) :
    bitOfByte (fieldByte old off m x) p =
      if 8 - off ≤ p ∧ p < 8 - off + m then x.getLsbD (8 - off + m - 1 - p) else bitOfByte old p := by
  simp only [bitOfByte, fieldByte, Nat.mod_eq_of_lt hp, BitVec.getLsbD_setWidth, BitVec.getLsbD_or, BitVec.getLsbD_and,
    BitVec.getLsbD_not, BitVec.getLsbD_shiftLeft, getLsbD_bitMask (show m < 32 by omega)]
  by_cases hfield : 8 - off ≤ p ∧ p < 8 - off + m
  · have hplace : 7 - p - (off - m) = 8 - off + m - 1 - p := by omega
    rw [if_pos hfield, hplace]
    simp [show 8 - off + m - 1 - p < m by omega, show ¬7 - p < off - m by omega, show 7 - p < 8 by omega,
      show 7 - p < 32 by omega]
  · rw [if_neg hfield]
    by_cases hlow : 7 - p < off - m
    · simp [hlow, show 7 - p < 8 by omega, show 7 - p < 32 by omega]
    · simp [show ¬7 - p - (off - m) < m by omega, show 7 - p < 8 by omega, show 7 - p < 32 by omega]

/-- Stores a field of `m` bits of `x` over the first of the `off` free bits of byte `bp`. -/
def State.putField (s : State) (c : CursorId) (bp off m : Nat) (x : Word) : State :=
  s.putByte c bp (fieldByte (s.byteAt c bp) off m x)

theorem bitAt_putField (s : State) (c : CursorId) (bp : Nat) {off m : Nat} (x : Word) (hm : m ≤ off) (hoff : off ≤ 8)
    (q : Nat) :
    (s.putField c bp off m x).bitAt c q =
      if 8 * bp + 8 - off ≤ q ∧ q < 8 * bp + 8 - off + m then x.getLsbD (8 * bp + 8 - off + m - 1 - q)
      else s.bitAt c q := by
  have hbit (y : Byte) : bitOfByte y q = bitOfByte y (q % 8) := by simp [bitOfByte]
  simp only [State.bitAt, State.putField, byteAt_putByte_same, Nat.shiftRight_eq_div_pow]
  by_cases hq : q / 2 ^ 3 = bp
  · rw [if_pos hq, hbit, bitOfByte_fieldByte _ x hm hoff (Nat.mod_lt _ (by decide)), ← hbit, hq]
    refine ite_congr (by rw [eq_iff_iff]; omega) (fun h => ?_) fun _ => rfl
    congr 1
    omega
  · rw [if_neg hq, if_neg (by omega)]

/-- One round of R151's loop: it fills the byte and goes on at the next, or stores the last bits and stops. -/
theorem writeBitsFrom_succ (s : State) (c : CursorId) (v : Word) (fuel bp off n : Nat) :
    s.writeBitsFrom c v (fuel + 1) bp off n =
      if off < n then
        (s.putField c bp off off (v >>> (n - off))).writeBitsFrom c v fuel (bp + 1) 8 (n - off)
      else s.putField c bp off n v := by
  have hfull (old : Byte) (x : Word) :
      ((old.setWidth 32 &&& ~~~bitMask off) ||| (x &&& bitMask off)).setWidth 8 = fieldByte old off off x := by
    simp [fieldByte]
  rw [State.writeBitsFrom]
  split_ifs with hlt heq
  · rw [hfull]; rfl
  · rw [hfull, heq]; rfl
  · rfl

/-- R151's rounds write the bits that R145's loop writes. -/
theorem bitAt_writeBitsFrom (s : State) (c : CursorId) (v : Word) {fuel bp off n : Nat} (hoff : off ≤ 8)
    (hpos : 1 ≤ off) (hn : 1 ≤ n) (hfuel : n ≤ fuel) (q : Nat) :
    (s.writeBitsFrom c v fuel bp off n).bitAt c q =
      if 8 * bp + 8 - off ≤ q ∧ q < 8 * bp + 8 - off + n then v.getLsbD (8 * bp + 8 - off + n - 1 - q)
      else s.bitAt c q := by
  induction fuel generalizing s bp off n with
  | zero => omega
  | succ fuel ih =>
    rw [writeBitsFrom_succ]
    by_cases hlt : off < n
    · rw [if_pos hlt, ih _ (by decide) (by decide) (by omega) (by omega), bitAt_putField s c bp _ le_rfl hoff]
      by_cases hrest : 8 * (bp + 1) + 8 - 8 ≤ q ∧ q < 8 * (bp + 1) + 8 - 8 + (n - off)
      · rw [if_pos hrest, if_pos (by omega)]
        congr 1
        omega
      · rw [if_neg hrest]
        refine ite_congr (by rw [eq_iff_iff]; omega) (fun h => ?_) fun _ => rfl
        rw [BitVec.getLsbD_ushiftRight]
        congr 1
        omega
    · rw [if_neg hlt, bitAt_putField s c bp v (by omega) hoff]

/-- R151's rounds change the buffer of one cursor, and nothing else. -/
theorem writeBitsFrom_eq_setCursor (s : State) (c : CursorId) (v : Word) (fuel bp off n : Nat) :
    s.writeBitsFrom c v fuel bp off n =
      s.setCursor c { s.cursor c with buf := ((s.writeBitsFrom c v fuel bp off n).cursor c).buf } := by
  induction fuel generalizing s bp off n with
  | zero => exact (setCursor_cursor_self s c).symm
  | succ fuel ih =>
    rw [writeBitsFrom_succ]
    split_ifs
    · rw [ih, State.putField, putByte_eq_setCursor]
      simp
    · exact putByte_eq_setCursor ..

/-- Bytes agree where their bits do. -/
theorem byteAt_eq_of_bitAt {s t : State} {c : CursorId} (h : ∀ q, s.bitAt c q = t.bitAt c q) (p : Nat) :
    s.byteAt c p = t.byteAt c p := by
  refine byte_ext_bits fun i hi => ?_
  have hq := h (8 * p + i)
  have hbyte : (8 * p + i) >>> 3 = p := by rw [Nat.shiftRight_eq_div_pow]; omega
  simpa [State.bitAt, hbyte, bitOfByte, Nat.mul_add_mod] using hq

/-- Settles O39: both forms write the same bits, and `writeBitsFrom_eq_setCursor` is the frame. -/
theorem bytewiseWriteAgrees : Obligations.BytewiseWriteAgrees := by
  intro s c pos n v h1 h32
  have hframe := writeBitsFrom_eq_setCursor s c v n (pos >>> 3) (8 - pos % 8) n
  refine ⟨byteAt_eq_of_bitAt fun q => ?bits, ?others, ?cursor⟩
  case bits =>
    have hpos : 8 * (pos >>> 3) + 8 - (8 - pos % 8) = pos := by rw [Nat.shiftRight_eq_div_pow]; omega
    rw [State.writeBitsBytewise, bitAt_writeBitsFrom s c v (by omega) (by omega) h1 le_rfl, hpos, bitAt_writeBits]
    refine ite_congr rfl (fun hq => ?_) fun _ => rfl
    rw [BitVec.getLsbD_setWidth, decide_eq_true (by omega), Bool.true_and]
  case others => rw [State.writeBitsBytewise, hframe, setCursor_setCursor, setCursor_cursor_self]
  case cursor => rw [State.writeBitsBytewise, hframe, setCursor_cursor_same]

end Sys2Proof.Machine

/-! The statements about the keystream cipher: what one round, one block and a seeding of the generator compute, what
`CSEED`, `CNEXT`, `CDEC` and `CENC` answer, and what each leaves alone. -/

namespace Sys2Proof.Machine

open Sys2Proof.Claims

/-! ### A command keeps to the cipher it selects (R180) -/

/-- A change of what lies outside its cursor commutes with a cursor command. -/
theorem exec_commutes_outside {i : Instr} {c : CursorId} (hc : cursorOf i = some c) {f : State → State} {s : State}
    {o : Outside} (hf : ∀ t : State, f (t.withOutside c (s.outside c)) = t.withOutside c o) :
    exec i (f s) = onNext f (exec i s) := by
  have hs : f s = s.withOutside c o := by simpa using hf s
  have hself : exec i s = onNext (fun t => t.withOutside c (s.outside c)) (exec i s) := by
    simpa using exec_withOutside hc s (s.outside c)
  calc exec i (f s)
      = onNext (fun t => t.withOutside c o) (exec i s) := by rw [hs, exec_withOutside hc]
    _ = onNext f (onNext (fun t => t.withOutside c (s.outside c)) (exec i s)) := by
        rw [onNext_onNext]
        exact congrArg (onNext · _) (funext fun t => (hf t).symm)
    _ = onNext f (exec i s) := by rw [← hself]

/-- A new cipher is a new outside of any cursor, whatever stood inside. -/
theorem setCipher_withOutside (s t : State) (c : CursorId) (k : CipherId) (x : Cipher) :
    (t.withOutside c (s.outside c)).setCipher k x = t.withOutside c ((s.setCipher k x).outside c) := by
  cases c <;> cases k <;> rfl

section
variable (s : State) (k : CipherId) (x : Cipher)

theorem raise_setCipher (e : ErrCode) (w : Word) : (s.setCipher k x).raise e w = (s.raise e w).setCipher k x := by
  cases k <;> rfl

theorem complete_setCipher : (s.setCipher k x).complete = s.complete.setCipher k x := by
  cases k <;> rfl

/-- Writes to the two ciphers do not meet. -/
theorem setCipher_comm {k k' : CipherId} (h : k' ≠ k) (x y : Cipher) :
    (s.setCipher k x).setCipher k' y = (s.setCipher k' y).setCipher k x := by
  cases k <;> cases k'
  case k0.k0 | k1.k1 => exact absurd rfl h
  all_goals rfl

/-- The effect of a cipher command sees and changes the cipher it selects, and may write `DOUT`. -/
theorem effectOf_setCipher_other {i : Instr} {k' : CipherId} (hi : cipherOf i = some k') (h : k' ≠ k) :
    effectOf (s.setCipher k x) i = (effectOf s i).setCipher k x := by
  cases i
  case cseed | cnext | cdec | cenc =>
    cases hi
    simp only [effectOf, setCipher_cipher_other s x h, setCipher_comm s h]
    rfl
  all_goals cases hi

end

/-- A cipher command and a new value of the other cipher commute. -/
theorem exec_setCipher_other {i : Instr} {k k' : CipherId} (hi : cipherOf i = some k') (h : k' ≠ k) (x : Cipher)
    (s : State) : exec i (s.setCipher k x) = onNext (fun t => t.setCipher k x) (exec i s) := by
  refine exec_commutes (f := fun t => t.setCipher k x) rfl rfl ?checks ?reach (raise_setCipher s k x) ?effect
  case checks | reach => cases i <;> cases hi <;> simp only [checksFor, reachOf, setCipher_cipher_other s x h]
  case effect => rw [effectOf_setCipher_other s k x hi h, complete_setCipher]

/-- A command selects a cursor or a cipher (R72). -/
theorem cursorOf_or_cipherOf (i : Instr) : (∃ c, cursorOf i = some c) ∨ ∃ k, cipherOf i = some k := by
  cases i
  case cseed k | cnext k | cdec k | cenc k => exact Or.inr ⟨k, rfl⟩
  all_goals exact Or.inl ⟨_, rfl⟩

/-- A state with both cursors replaced. -/
def State.withCursors (s : State) (a b : Cursor) : State := { s with c0 := a, c1 := b }

@[simp] theorem withCursors_cipher (s : State) (a b : Cursor) (k : CipherId) :
    (s.withCursors a b).cipher k = s.cipher k := by
  cases k <;> rfl

/-- A cipher command's effect sees and changes no cursor. -/
theorem effectOf_withCursors {i : Instr} {k : CipherId} (hi : cipherOf i = some k) (a b : Cursor) (s : State) :
    effectOf (s.withCursors a b) i = (effectOf s i).withCursors a b := by
  cases i
  case cseed | cnext | cdec | cenc => simp only [effectOf, withCursors_cipher]; rfl
  all_goals cases hi

/-- A cipher command commutes with new values of both cursors. -/
theorem exec_withCursors {i : Instr} {k : CipherId} (hi : cipherOf i = some k) (a b : Cursor) (s : State) :
    exec i (s.withCursors a b) = onNext (fun t => t.withCursors a b) (exec i s) := by
  refine exec_commutes (f := fun t => t.withCursors a b) rfl rfl ?checks ?reach (fun _ _ => rfl) ?effect
  case checks | reach => cases i <;> cases hi <;> simp only [checksFor, reachOf, withCursors_cipher]
  case effect => rw [effectOf_withCursors hi]; rfl

/-- Settles O21: to a cursor command a cipher lies outside its cursor; a cipher command sees its own cipher alone. -/
theorem cipherCommandTouchesOnlyItsCipher : Obligations.CipherCommandTouchesOnlyItsCipher := by
  refine ⟨fun i k hk x s => ?ciphers, fun i k hi a b s => exec_withCursors hi a b s⟩
  rcases cursorOf_or_cipherOf i with ⟨c, hc⟩ | ⟨k', hi⟩
  · exact exec_commutes_outside (f := fun t => t.setCipher k x) hc fun t => setCipher_withOutside s t c k x
  · exact exec_setCipher_other hi (by rintro rfl; exact hk hi) x s

/-! ### The consuming commands (R181 to R184, R187) -/

/-- The commands that take a keystream byte of one cipher. -/
theorem consuming_cases {i : Instr} {k : CipherId} (hi : i ∈ [Instr.cnext k, .cdec k, .cenc k]) :
    i = .cnext k ∨ i = .cdec k ∨ i = .cenc k := by
  simpa using hi

theorem consuming_passes_iff {i : Instr} {k : CipherId} (hi : i ∈ [Instr.cnext k, .cdec k, .cenc k]) (s : State) :
    firstError (checksFor s i) = none ↔ (s.cipher k).seeded = true := by
  rcases consuming_cases hi with rfl | rfl | rfl <;> simp [checksFor]

/-- A seeded cipher completes a consuming command with its effect. -/
theorem consuming_completes {i : Instr} {s : State} {k : CipherId} (hi : i ∈ [Instr.cnext k, .cdec k, .cenc k])
    (hf : s.fatal = false) (hs : (s.cipher k).seeded = true) : exec i s = .next (effectOf s i).complete := by
  refine exec_completes hf ((consuming_passes_iff hi s).mpr hs) ?_
  rcases consuming_cases hi with rfl | rfl | rfl <;> exact Nat.zero_le _

/-- A byte taken from `DIN`'s low byte, as a number modulo 256 (R183). -/
theorem byte_sub_zeroExtend (d : DWord) (b : Byte) :
    (d.setWidth 8 - b).setWidth 64 = BitVec.ofNat 64 ((d.toNat % 256 + 256 - b.toNat) % 256) := by
  refine BitVec.eq_of_toNat_eq ?_
  simp only [BitVec.toNat_setWidth, BitVec.toNat_sub, BitVec.toNat_ofNat]
  omega

/-- A byte added to `DIN`'s low byte, as a number modulo 256 (R184). -/
theorem byte_add_zeroExtend (d : DWord) (b : Byte) :
    (d.setWidth 8 + b).setWidth 64 = BitVec.ofNat 64 ((d.toNat % 256 + b.toNat) % 256) := by
  refine BitVec.eq_of_toNat_eq ?_
  simp only [BitVec.toNat_setWidth, BitVec.toNat_add, BitVec.toNat_ofNat]

/-- Settles O42: each of the three completes with its effect, whose `DOUT` is a byte zero-extended. -/
theorem consumingCommandsResult : Obligations.ConsumingCommandsResult := by
  intro s k hf hs b p hp
  simp only [List.mem_cons, List.not_mem_nil, or_false] at hp
  rcases hp with rfl | rfl | rfl <;> rw [consuming_completes (k := k) (by simp) hf hs, effectOf]
  · rw [BitVec.ofNat_toNat]; rfl
  · rw [byte_sub_zeroExtend]; rfl
  · rw [byte_add_zeroExtend]; rfl

/-- The `DOUT` of a consuming command is a byte. -/
theorem effectOf_consuming_dout {i : Instr} {k : CipherId} (hi : i ∈ [Instr.cnext k, .cdec k, .cenc k]) (s : State) :
    ∃ b : Byte, (effectOf s i).dout = b.setWidth 64 := by
  rcases consuming_cases hi with rfl | rfl | rfl <;> exact ⟨_, rfl⟩

/-- A command that answers `ERR = 0` completed with its effect. -/
theorem exec_ok {i : Instr} {s t : State} (h : exec i s = .next t) (herr : t.err = .ok) :
    t = (effectOf s i).complete := by
  rcases exec_next_cases h with ⟨-, rfl⟩ | ⟨-, e, he, rfl⟩ | ⟨-, -, -, rfl⟩
  · cases herr
  · exact absurd herr (firstError_checksFor_ne_ok he)
  · rfl

/-- Settles O43: an answer with `ERR = 0` is the effect's, and that is a byte zero-extended. -/
theorem keystreamResultsAreBytes : Obligations.KeystreamResultsAreBytes := by
  intro s t k i hi h herr
  obtain ⟨b, hb⟩ := effectOf_consuming_dout hi s
  obtain rfl := exec_ok h herr
  have hlt := b.isLt
  rw [complete_dout, hb]
  refine ⟨?le, BitVec.eq_of_toNat_eq ?high⟩
  case le => rw [BitVec.toNat_setWidth]; omega
  case high =>
    simp only [BitVec.extractLsb'_toNat, BitVec.toNat_setWidth, BitVec.toNat_ofNat, Nat.shiftRight_eq_div_pow]
    omega

/-! ### One round and one block (R174) -/

theorem isaacShift_eq_roundShift (i : BitVec 8) (a : Word) : isaacShift i a = roundShift i.toNat a := by
  have hbits (r : Nat) (hr : r < 4) : i.setWidth 2 = BitVec.ofNat 2 r ↔ i.toNat % 4 = r := by
    rw [← BitVec.toNat_inj, BitVec.toNat_setWidth, BitVec.toNat_ofNat, Nat.mod_eq_of_lt hr]
  have hlt : i.toNat % 4 < 4 := Nat.mod_lt _ (by decide)
  simp only [isaacShift, hbits 0 (by decide), hbits 1 (by decide), hbits 2 (by decide), roundShift]
  interval_cases i.toNat % 4 <;> rfl

/-- An index 128 further on, modulo 256 (R16). -/
theorem index_add_128 (i : BitVec 8) : i + 128 = BitVec.ofNat 8 ((i.toNat + 128) % 256) := by
  refine BitVec.eq_of_toNat_eq ?_
  simp [BitVec.toNat_add]

/-- Eight bits of a word from bit `n` on, as an index. -/
theorem index_of_bits (x : Word) (n : Nat) : x.extractLsb' n 8 = BitVec.ofNat 8 (x.toNat / 2 ^ n % 256) := by
  refine BitVec.eq_of_toNat_eq ?_
  simp [BitVec.extractLsb'_toNat, Nat.shiftRight_eq_div_pow]

/-- A round is the loop body of R174. -/
theorem isRound_isaacRound (k : Cipher) (i : BitVec 8) : isRound k i (isaacRound k i) := by
  unfold isRound
  rw [← index_add_128, ← isaacShift_eq_roundShift]
  have h4 (x : Word) := index_of_bits x 2
  have h1024 (x : Word) := index_of_bits x 10
  simp only [Nat.reducePow] at h4 h1024
  simp only [← h4, ← h1024]
  exact ⟨rfl, fun j => (isaacRound_get k i j).1, rfl, fun j => (isaacRound_get k i j).2, rfl, rfl, rfl⟩

/-- The first `n` rounds of a block. -/
theorem foldl_isaacRound_range (k : Cipher) (n : Nat) :
    ((List.range n).map (BitVec.ofNat 8)).foldl isaacRound k = roundsFrom k n := by
  induction n with
  | zero => rfl
  | succ n ih => rw [List.range_succ, List.map_append, List.foldl_append, ih]; rfl

theorem isaacBlock_eq_roundsFrom (k : Cipher) :
    isaacBlock k = roundsFrom { k with c := k.c + 1, b := k.b + (k.c + 1) } 256 :=
  foldl_isaacRound_range _ 256

/-! ### The 256 bytes of a block (R176, R177, R181) -/

/-- Consuming a word that is left takes it from the top of the block. -/
theorem advance_withCnt_succ (k : Cipher) {m : Nat} (hm : m < 256) :
    Cipher.advance { k with cnt := BitVec.ofNat 9 (m + 1) } = { k with cnt := BitVec.ofNat 9 m } := by
  have hne : BitVec.ofNat 9 (m + 1) ≠ 0#9 := fun h => by
    have := congrArg BitVec.toNat h
    simp only [BitVec.toNat_ofNat] at this
    omega
  rw [advance_of_ne_zero hne]
  congr 1
  refine BitVec.eq_of_toNat_eq ?_
  simp only [BitVec.toNat_sub, BitVec.toNat_ofNat]
  omega

theorem nextByte_withCnt_succ (k : Cipher) {m : Nat} (hm : m < 256) :
    Cipher.nextByte { k with cnt := BitVec.ofNat 9 (m + 1) } =
      (WordArray.get k.rsl (BitVec.ofNat 8 m)).setWidth 8 := by
  have hindex : (BitVec.ofNat 9 m).setWidth 8 = BitVec.ofNat 8 m := by
    refine BitVec.eq_of_toNat_eq ?_
    simp only [BitVec.toNat_setWidth, BitVec.toNat_ofNat]
    omega
  rw [Cipher.nextByte, advance_withCnt_succ k hm, hindex]

/-- Where a whole block is left, its first 256 advances only count down. -/
theorem iterate_advance {k : Cipher} (hk : k.cnt = 256#9) {n : Nat} (hn : n ≤ 256) :
    Cipher.advance^[n] k = { k with cnt := BitVec.ofNat 9 (256 - n) } := by
  induction n with
  | zero => rw [Function.iterate_zero_apply, Nat.sub_zero, ← hk]
  | succ n ih =>
    rw [Function.iterate_succ_apply', ih (by omega), show 256 - n = 256 - (n + 1) + 1 by omega]
    exact advance_withCnt_succ k (by omega)

/-- Settles O44: `isRound_isaacRound` is the loop body, and `iterate_advance` counts the block down to 0. -/
theorem blockServes256Bytes : Obligations.BlockServes256Bytes := by
  refine ⟨isRound_isaacRound, isaacBlock_eq_roundsFrom, fun k hk => ?_⟩
  have hempty : Cipher.advance^[256] k = { k with cnt := 0#9 } := iterate_advance hk le_rfl
  refine ⟨fun n hn => ⟨?byte, ?count⟩, hempty, ?nextBlock, ?nextCount⟩
  case byte =>
    rw [iterate_advance hk hn.le, show 256 - n = 255 - n + 1 by omega]
    exact nextByte_withCnt_succ k (by omega)
  case count => rw [iterate_advance hk hn.le]
  case nextBlock =>
    rw [hempty, Cipher.nextByte, advance_of_zero rfl]
    rfl
  case nextCount => rw [Function.iterate_succ_apply', hempty, advance_of_zero rfl]

/-! ### Seeding (R172, R173, R175) -/

/-- `mix` is R172's eight rows: each row, run on the list of words, changes three of them. -/
theorem mixWords_mix (m : Mix) :
    mixWords (mix m) = mixShifts.zipIdx.foldl (fun v x => mixRow v x.2 x.1) (mixWords m) := by
  simp only [mix, mixWords, mixShifts, List.zipIdx_cons, List.zipIdx_nil, List.foldl_cons, List.foldl_nil, mixRow,
    Nat.reduceAdd, Nat.reduceMod, List.set_cons_zero, List.set_cons_succ, List.getD_cons_zero, List.getD_cons_succ]

/-- The block of eight words that `addBlock` adds, where the array holds the words `word`. -/
theorem addBlock_eq (m : Mix) {src : WordArray} {word : Nat → Word} {j : Nat}
    (h : ∀ n, n < 8 * j + 8 → WordArray.get src (BitVec.ofNat 8 n) = word n) :
    m.addBlock src (BitVec.ofNat 8 (8 * j)) =
      ⟨m.a + word (8 * j), m.b + word (8 * j + 1), m.c + word (8 * j + 2), m.d + word (8 * j + 3),
        m.e + word (8 * j + 4), m.f + word (8 * j + 5), m.g + word (8 * j + 6), m.h + word (8 * j + 7)⟩ := by
  have hword (i : Nat) (hi : i < 8) :
      WordArray.get src (BitVec.ofNat 8 (8 * j) + BitVec.ofNat 8 i) = word (8 * j + i) := by
    rw [← BitVec.ofNat_add]
    exact h _ (by omega)
  simp only [Mix.addBlock, BitVec.ofNat_eq_ofNat, h (8 * j) (by omega), hword, Nat.reduceLT]

/-- A pass's working words after its first blocks are R173's, whatever array holds the words it goes over. -/
theorem passMix_eq_passWords {src : WordArray} {word : Nat → Word} (m : Mix)
    (h : ∀ n, n < 256 → WordArray.get src (BitVec.ofNat 8 n) = word n) {j : Nat} (hj : j ≤ 32) :
    passMix src m j = passWords m word j := by
  induction j with
  | zero => rfl
  | succ j ih => rw [passMix, ih (by omega), addBlock_eq _ fun n hn => h n (by omega)]; rfl

/-- R173's pass 1, in the spec's words. -/
theorem seedPass_eq_passWords {rsl : WordArray} {seed : Nat → Word} (m : Mix) (dst : WordArray)
    (h : ∀ n, n < 256 → WordArray.get rsl (BitVec.ofNat 8 n) = seed n) :
    (seedPass rsl m dst).1 = passWords m seed 32 ∧
      ∀ n, n < 256 → WordArray.get (seedPass rsl m dst).2 (BitVec.ofNat 8 n) = passMem m seed n := by
  obtain ⟨hwords, hmem⟩ := seedPass_spec rsl m dst
  refine ⟨hwords.trans (passMix_eq_passWords m h le_rfl), fun n hn => ?_⟩
  rw [hmem n hn, passMix_eq_passWords m h (by omega)]
  rfl

/-- The words R173's pass 2 leaves, in the spec's words. -/
theorem get_memPass {mem : WordArray} {word : Nat → Word} (m : Mix)
    (h : ∀ n, n < 256 → WordArray.get mem (BitVec.ofNat 8 n) = word n) {n : Nat} (hn : n < 256) :
    WordArray.get (memPass m mem).2 (BitVec.ofNat 8 n) = passMem m word n := by
  rw [(memPass_spec m mem).2 n hn, passMix_eq_passWords m h (by omega)]
  rfl

/-- `MEM` after both passes of R173, over the seed in `rsl` and from a `MEM` that held `old`. -/
def initialMem (rsl old : WordArray) : WordArray :=
  (memPass (seedPass rsl mixStart old).1 (seedPass rsl mixStart old).2).2

/-- Both passes leave R173's words, which come from the seed alone. -/
theorem get_initialMem {rsl : WordArray} {seed : Nat → Word} (old : WordArray)
    (h : ∀ n, n < 256 → WordArray.get rsl (BitVec.ofNat 8 n) = seed n) {n : Nat} (hn : n < 256) :
    WordArray.get (initialMem rsl old) (BitVec.ofNat 8 n) = initMem seed n := by
  obtain ⟨hwords, hmem⟩ := seedPass_eq_passWords mixStart old h
  rw [initialMem, get_memPass _ hmem hn, hwords]
  rfl

/-- The words that stood in `MEM` before a seeding leave no trace in it. -/
theorem initialMem_old_irrelevant (rsl old old' : WordArray) : initialMem rsl old = initialMem rsl old' := by
  refine wordArray_ext fun i => ?_
  obtain ⟨n, hn, rfl⟩ : ∃ n, n < 256 ∧ i = BitVec.ofNat 8 n := ⟨i.toNat, i.isLt, by simp⟩
  rw [get_initialMem old (fun _ _ => rfl) hn, get_initialMem old' (fun _ _ => rfl) hn]

/-- `RSL` as `CSEED` fills it: the key words and then zeros (R175). -/
theorem get_seedWords (q0 q1 q2 q3 : Word) {n : Nat} (hn : n < 256) :
    WordArray.get (seedWords q0 q1 q2 q3) (BitVec.ofNat 8 n) = [q0, q1, q2, q3].getD n 0 := by
  have hindex (i : Nat) (hi : i < 256) : BitVec.ofNat 8 n = BitVec.ofNat 8 i ↔ n = i := by
    rw [← BitVec.toNat_inj, BitVec.toNat_ofNat, BitVec.toNat_ofNat]
    omega
  simp only [seedWords, get_put, BitVec.ofNat_eq_ofNat, hindex, Nat.reduceLT]
  by_cases hkey : n < 4
  · interval_cases n <;> rfl
  · rw [List.getD_eq_default _ _ (by simp; omega)]
    iterate 4 rw [if_neg (by omega)]
    simp [WordArray.get]

/-- A seeded cipher: a first block of the generator, over the two passes of R173 (R175). -/
theorem seed_eq (k : Cipher) (q0 q1 q2 q3 : Word) :
    k.seed q0 q1 q2 q3 =
      { isaacBlock
          { k with
            mem := initialMem (seedWords q0 q1 q2 q3) k.mem
            rsl := seedWords q0 q1 q2 q3
            a := 0#32
            b := 0#32
            c := 0#32 } with
        seeded := true
        cnt := 256#9 } := by
  simp only [Cipher.seed, cipherInit, initialMem]

@[simp] theorem seed_c (k : Cipher) (q0 q1 q2 q3 : Word) : (k.seed q0 q1 q2 q3).c = 1#32 := by
  simp [seed_eq]

/-- `CSEED` of an unseeded cipher completes with its effect. -/
theorem cseed_completes {s : State} {k : CipherId} (hf : s.fatal = false) (hs : (s.cipher k).seeded = false) :
    exec (.cseed k) s =
      .next (s.setCipher k ((s.cipher k).seed s.key0 s.key1 s.key2 s.key3)).complete :=
  exec_completes hf (by simp [checksFor, hs]) (Nat.zero_le _)

/-- Settles O40: `mixWords_mix` is R172, and `get_initialMem` is R173's two passes. -/
theorem cseedResult : Obligations.CseedResult := by
  refine ⟨mixWords_mix, fun s k hf hs => ⟨_, cseed_completes hf hs, ?_⟩⟩
  rw [complete_cipher, setCipher_cipher_same]
  have hseed (n : Nat) (hn : n < 256) := get_seedWords s.key0 s.key1 s.key2 s.key3 hn
  exact ⟨seed_seeded .., seed_cnt .., seed_c .., rfl, rfl, _, _, hseed,
    fun n hn => get_initialMem (s.cipher k).mem hseed hn, seed_eq ..⟩

/-! ### The keystream is the key's (R44, R185, R188) -/

/-- A cipher with its seeded bit and its count replaced. -/
def Cipher.withStatus (k : Cipher) (seeded : Bool) (cnt : BitVec 9) : Cipher := { k with seeded := seeded, cnt := cnt }

/-- The generator does not read the seeded bit or the count. -/
theorem isaacBlock_withStatus (k : Cipher) (seeded : Bool) (cnt : BitVec 9) :
    isaacBlock (k.withStatus seeded cnt) = (isaacBlock k).withStatus seeded cnt := by
  have hrounds (n : Nat) (x : Cipher) :
      roundsFrom (x.withStatus seeded cnt) n = (roundsFrom x n).withStatus seeded cnt := by
    induction n with
    | zero => rfl
    | succ n ih => rw [roundsFrom, ih]; rfl
  rw [isaacBlock_eq_roundsFrom, isaacBlock_eq_roundsFrom, ← hrounds]
  rfl

/-- Nothing of the cipher before a seeding is left after it. -/
theorem seed_old_irrelevant (k k' : Cipher) (q0 q1 q2 q3 : Word) : k.seed q0 q1 q2 q3 = k'.seed q0 q1 q2 q3 := by
  have hblock (x : Cipher) : x.seed q0 q1 q2 q3 =
      isaacBlock ⟨true, initialMem (seedWords q0 q1 q2 q3) x.mem, seedWords q0 q1 q2 q3, 0#32, 0#32, 0#32, 256#9⟩ :=
    (seed_eq x q0 q1 q2 q3).trans (isaacBlock_withStatus _ true 256#9).symm
  rw [hblock, hblock, initialMem_old_irrelevant]

/-- Settles O41: the two seedings are of one key. -/
theorem seedDependsOnlyOnTheKey : Obligations.SeedDependsOnlyOnTheKey := by
  intro s s' k k' hf hf' hs hs' h0 h1 h2 h3
  refine ⟨_, _, cseed_completes hf hs, cseed_completes hf' hs', ?_⟩
  have heq : (s.cipher k).seed s.key0 s.key1 s.key2 s.key3 = (s'.cipher k').seed s'.key0 s'.key1 s'.key2 s'.key3 := by
    rw [h0, h1, h2, h3]
    exact seed_old_irrelevant ..
  simp only [complete_cipher, setCipher_cipher_same]
  exact ⟨heq, fun n => by rw [heq]⟩

theorem iterate_advance_seeded (k : Cipher) (n : Nat) : (Cipher.advance^[n] k).seeded = k.seeded := by
  induction n with
  | zero => rfl
  | succ n ih => rw [Function.iterate_succ_apply', advance_seeded, ih]

/-- Subtracting the byte that was added to `DIN`'s low byte gives it back. -/
theorem sub_add_byte (d : DWord) (b : Byte) :
    (((d.setWidth 8 + b).setWidth 64).setWidth 8 - b).setWidth 64 = (d.setWidth 8).setWidth 64 := by
  rw [BitVec.setWidth_setWidth_of_le _ (by decide), BitVec.setWidth_eq, BitVec.add_sub_cancel]

/-- Settles O45: both ciphers hold the same state, so the byte added is the byte subtracted. -/
theorem decodeUndoesEncode : Obligations.DecodeUndoesEncode := by
  intro s s' k k' a a' q0 q1 q2 q3 n hf hf' hk hk'
  have hstep : s'.cipher k' = s.cipher k := by rw [hk, hk', seed_old_irrelevant a' a]
  have hs : (s.cipher k).seeded = true := by rw [hk, iterate_advance_seeded, seed_seeded]
  have hcipher (d : DWord) : State.cipher { s' with din := d } k' = s.cipher k := by
    rw [← hstep]; cases k' <;> rfl
  refine ⟨_, _, consuming_completes (k := k) (by simp) hf hs,
    consuming_completes (k := k') (by simp) hf' (by rw [hcipher]; exact hs), rfl, ?_⟩
  simp only [complete_dout, effectOf, hcipher, sub_add_byte, BitVec.toNat_setWidth]
  omega

end Sys2Proof.Machine

/-! The statements about errors and completion: the first error that applies is the one a command raises, what a raised
error and a success change, the codes each command can raise, and the level of `err_o`. -/

namespace Sys2Proof.Machine

open Sys2Proof.Claims

/-! ### The two ways a command ends (R213, R218, R219) -/

/-- The model raises an error as R213 gives it. -/
theorem raise_eq_raised (s : State) (e : ErrCode) (w : Word) : s.raise e w = raised s e w := rfl

theorem eq_fatalLock_of_reportedError {i : Instr} {s : State} {e : ErrCode} (hf : s.fatal = true)
    (h : reportedError s i = some e) : e = .fatalLock :=
  Option.some.inj (h.symm.trans (reportedError_of_fatal hf i))

/-- A command in which an error applies raises the one R218 puts first. -/
theorem exec_of_reportedError {i : Instr} {s : State} {e : ErrCode} (h : reportedError s i = some e) :
    exec i s = .next (raised s e (encode i)) := by
  rw [exec_eq, ← raise_eq_raised]
  cases hf : s.fatal with
  | true =>
    obtain rfl := eq_fatalLock_of_reportedError hf h
    exact command_fatal i _ _ hf
  | false => exact command_error i _ hf ((reportedError_eq_firstError hf i).symm.trans h)

/-- A command in which no error applies completes with its effect, where it answers a next state. -/
theorem exec_of_reportedError_none {i : Instr} {s t : State} (hn : reportedError s i = none)
    (h : exec i s = .next t) : t = (effectOf s i).complete := by
  rcases exec_next_cases h with ⟨hf, -⟩ | ⟨hf, e, he, -⟩ | ⟨-, -, -, ht⟩
  · simp [reportedError_of_fatal hf i] at hn
  · simp [reportedError_eq_firstError hf i, he] at hn
  · exact ht

/-- What a command that answers a next state did, in the terms of R218. -/
theorem exec_reported_cases {i : Instr} {s t : State} (h : exec i s = .next t) :
    (∃ e, reportedError s i = some e ∧ t = raised s e (encode i)) ∨
    (reportedError s i = none ∧ t = (effectOf s i).complete) := by
  cases hr : reportedError s i with
  | none => exact Or.inr ⟨rfl, exec_of_reportedError_none hr h⟩
  | some e => exact Or.inl ⟨e, rfl, Host.Outcome.next.inj (h.symm.trans (exec_of_reportedError hr))⟩

/-- An illegal word raises the lock, or else `IllegalCommand` (R80, R217). -/
theorem runWord_of_decode_error {w : Word} {r : Illegal} (hd : decode w = .error r) (s : State) :
    runWord w s = .next (raised s (if s.fatal then .fatalLock else .illegalCommand) w) := by
  simp only [runWord, hd]
  rcases illegalWord_cases w s with ⟨hf, hw⟩ | ⟨hf, hw⟩ <;> rw [hw, hf] <;> rfl

/-- While `FATAL = 1` every word raises the lock: a legal one by its own first check, an illegal one before its code. -/
theorem runWord_of_fatal {s : State} (hf : s.fatal = true) (w : Word) :
    runWord w s = .next (raised s .fatalLock w) := by
  cases hd : decode w with
  | error r => rw [runWord_of_decode_error hd, if_pos hf]
  | ok i =>
    obtain ⟨hencode, -⟩ := encodeInvertsDecode w i hd
    simp only [runWord, hd]
    rw [exec_of_reportedError (reportedError_of_fatal hf i), hencode]

/-- Settles O12: `exec_of_reportedError` where an error applies, and a completed effect has `ERR = 0`. -/
theorem firstErrorIsReported : Obligations.FirstErrorIsReported := by
  refine ⟨fun i s => ?command, fun w r s hd => runWord_of_decode_error hd s⟩
  case command =>
    cases hr : reportedError s i with
    | some e => exact exec_of_reportedError hr
    | none =>
      intro t ht
      rw [exec_of_reportedError_none hr ht, complete_err]

/-- Settles O11: under the lock, R213's other fields keep their values. -/
theorem fatalLockStopsEveryWord : Obligations.FatalLockStopsEveryWord := by
  intro w s hf
  rw [runWord_of_fatal hf]
  simp [raised]

/-- Settles O14: each of the three ways to an error is a `raise` of the word itself, since a legal word is the encoding
of its instruction (R80). -/
theorem raisedErrorChangesNothingElse : Obligations.RaisedErrorChangesNothingElse := by
  intro w s t h herr
  rcases runWord_cases h with ⟨-, rfl⟩ | ⟨-, rfl⟩ | ⟨i, hd, hi⟩
  · rfl
  · rfl
  · obtain ⟨hencode, -⟩ := encodeInvertsDecode w i hd
    rcases exec_reported_cases hi with ⟨e, -, rfl⟩ | ⟨-, rfl⟩
    · rw [hencode]
      rfl
    · exact absurd (complete_err _) herr

/-- Settles O15: the effect touches neither `ERRCMD` nor `FATAL`. -/
theorem successKeepsErrcmdAndFatal : Obligations.SuccessKeepsErrcmdAndFatal := by
  intro i s t hn h
  obtain rfl := exec_of_reportedError_none hn h
  refine ⟨rfl, ?errcmd, (effectOf_keeps s i).1, rfl⟩
  case errcmd => rw [effectOf_frame]; rfl

/-! ### The codes of each command (R211) -/

/-- The error a command reports is one of its list: the lock is on every list, and so is each of its own checks. -/
theorem mem_codesOf_of_reportedError {s : State} {i : Instr} {e : ErrCode} (h : reportedError s i = some e) :
    e ∈ codesOf i := by
  cases hf : s.fatal with
  | true =>
    obtain rfl := eq_fatalLock_of_reportedError hf h
    cases i <;> simp [codesOf]
  | false =>
    have hm : (true, e) ∈ checksFor s i := firstError_mem ((reportedError_eq_firstError hf i).symm.trans h)
    cases i
    case clr => cases hm
    case bwbegin | bwend | brbegin | brend | cseed | cnext | cdec | cenc =>
      obtain ⟨-, rfl⟩ : _ ∧ e = _ := by simpa [checksFor, State.modeCheck] using hm
      simp [codesOf]
    case setw =>
      obtain ⟨-, rfl⟩ | ⟨-, rfl⟩ : (_ ∧ e = _) ∨ (_ ∧ e = _) := by simpa [checksFor, State.modeCheck] using hm
      all_goals simp [codesOf]
    case rd | wr | wbits | rbits =>
      obtain ⟨-, rfl⟩ | ⟨-, rfl⟩ | ⟨-, rfl⟩ : (_ ∧ e = _) ∨ (_ ∧ e = _) ∨ (_ ∧ e = _) := by
        simpa [checksFor, State.modeCheck] using hm
      all_goals simp [codesOf]

/-- Settles O16: an answer is the completed effect, or the reported error raised. -/
theorem commandsRaiseOnlyTheirCodes : Obligations.CommandsRaiseOnlyTheirCodes := by
  intro i s t h
  rcases exec_reported_cases h with ⟨e, he, rfl⟩ | ⟨-, rfl⟩
  · exact Or.inr (mem_codesOf_of_reportedError he)
  · exact Or.inl rfl

/-! ### Idle steps, and the level of `err_o` (R221, R231) -/

/-- Settles O8: the step takes the first pending action, and there is none. -/
theorem idleStepHoldsState : Obligations.IdleStepHoldsState := by
  intro s h
  simp [step, hostStep, h]

theorem errOut_eq_true_iff (s : State) : s.errOut = true ↔ (s.fatal = true ∨ s.err.code ≠ 0#4) := by
  simp [State.errOut]

theorem errOut_of_err_ok {s : State} (h : s.err = .ok) : s.errOut = s.fatal := by
  simp [State.errOut, h, ErrCode.code]

theorem runWord_keeps_lock {w : Word} {s t : State} (hf : s.fatal = true) (h : runWord w s = .next t) :
    t.fatal = true := by
  obtain rfl := Host.Outcome.next.inj ((runWord_of_fatal hf w).symm.trans h)
  simp [raised, hf]

/-- Host accesses that issue no command keep the lock (R62). -/
theorem engineKept_fatal {s t : State} (h : engineKept s t) : t.fatal = s.fatal := by
  obtain ⟨-, -, -, -, hfatal, -⟩ := h
  exact hfatal

/-- An issue keeps the lock: it is dropped, or its word meets the lock. -/
theorem issue_keeps_lock {w : Word} {during : List BusAccess} {s t : State} (hf : s.fatal = true)
    (h : issue w during s = .next t) : t.fatal = true := by
  rcases issue_cases h with ⟨-, rfl⟩ | ⟨-, h⟩
  · exact (engineKept_fatal (busAccesses_engineKept { s with ovr := true } during)).trans hf
  · exact runWord_keeps_lock ((engineKept_fatal (busAccesses_engineKept { s with busy := true } during)).trans hf) h

/-- R30, R241: once `FATAL = 1`, a step that is no reset keeps it. -/
theorem step_keeps_lock {s t : State} (hf : s.fatal = true) (hrst : ∀ rest, s.host ≠ .rst :: rest)
    (h : step s = .next t) : t.fatal = true := by
  rcases step_cases h with
    ⟨-, rfl⟩ | ⟨e, rest, hh, ⟨rfl, -⟩ | ⟨a, -, -, rfl⟩ | ⟨a, w, -, -, h⟩ | ⟨w, during, -, h⟩⟩
  · exact hf
  · exact absurd hh (hrst rest)
  · exact (engineKept_fatal (busAccess_engineKept { s with host := rest } a)).trans hf
  · exact issue_keeps_lock (s := { s with host := rest }) hf h
  · exact issue_keeps_lock (s := { s with host := rest }) hf h

/-- Settles O60: the level is `FATAL` where `ERR = 0`, `step_keeps_lock` holds it up, and a reset clears both. -/
theorem errorOutputLevel : Obligations.ErrorOutputLevel := by
  refine ⟨errOut_eq_true_iff, fun i s t _ herr => errOut_of_err_ok herr, fun s t hf hrst h => ?lock,
    fun s t rest hh h => ?reset⟩
  case lock => exact (errOut_eq_true_iff t).mpr (Or.inl (step_keeps_lock hf hrst h))
  case reset =>
    rw [step_rst hh] at h
    cases h
    exact errOut_of_err_ok rfl

end Sys2Proof.Machine

/-! The statements about reset and the hazards of a running system: what only a reset undoes, and the capacity that
nothing changes. -/

namespace Sys2Proof.Machine

open Sys2Proof.Claims

/-! ### What a step does to the ciphers and the capacity -/

/-- `t` has the ciphers and the capacity of `s`. Unlike `engineKept` it speaks of no field that taking the host's next
action or setting `BUSY` or `OVR` changes, so it relates the two ends of a whole step. -/
def ciphersAndCapacityKept (s t : State) : Prop := (∀ k, t.cipher k = s.cipher k) ∧ t.params = s.params

theorem ciphersAndCapacityKept_of_engineKept {s t : State} (h : engineKept s t) : ciphersAndCapacityKept s t := by
  obtain ⟨-, -, -, -, -, hk0, hk1, hparams, -⟩ := h
  refine ⟨fun k => ?_, hparams⟩
  cases k
  · exact hk0
  · exact hk1

/-- An issue is dropped, or runs its word in a state with the same ciphers and the same capacity. -/
theorem issue_engine_cases {w : Word} {during : List BusAccess} {s t : State} (h : issue w during s = .next t) :
    ciphersAndCapacityKept s t ∨ ∃ u, ciphersAndCapacityKept s u ∧ runWord w u = .next t := by
  rcases issue_cases h with ⟨-, rfl⟩ | ⟨-, h⟩
  · exact Or.inl (ciphersAndCapacityKept_of_engineKept (busAccesses_engineKept { s with ovr := true } during))
  · exact Or.inr ⟨_, ciphersAndCapacityKept_of_engineKept (s := { s with busy := true })
      (busAccesses_engineKept _ during), h⟩

/-- What a step does to the ciphers and the capacity: a reset, nothing, or what one word does to them. -/
theorem step_engine_cases {s t : State} (h : step s = .next t) :
    (∃ rest, s.host = .rst :: rest ∧ t = State.afterReset { s with host := rest }) ∨
    ciphersAndCapacityKept s t ∨
    ∃ w u, ciphersAndCapacityKept s u ∧ runWord w u = .next t := by
  rcases step_cases h with
    ⟨-, rfl⟩ | ⟨e, rest, hh, ⟨rfl, ht⟩ | ⟨a, -, -, rfl⟩ | ⟨a, w, -, -, h⟩ | ⟨w, during, -, h⟩⟩
  · exact Or.inr (Or.inl ⟨fun _ => rfl, rfl⟩)
  · exact Or.inl ⟨rest, hh, ht⟩
  · exact Or.inr (Or.inl (ciphersAndCapacityKept_of_engineKept (s := { s with host := rest })
      (busAccess_engineKept _ a)))
  · exact Or.inr ((issue_engine_cases (s := { s with host := rest }) h).imp_right fun hw => ⟨w, hw⟩)
  · exact Or.inr ((issue_engine_cases (s := { s with host := rest }) h).imp_right fun hw => ⟨w, hw⟩)

/-! ### The capacity (R245) -/

theorem runWord_params {w : Word} {s t : State} (h : runWord w s = .next t) : t.params = s.params := by
  rcases runWord_cases h with ⟨-, rfl⟩ | ⟨-, rfl⟩ | ⟨i, -, hi⟩
  · rfl
  · rfl
  · obtain ⟨-, -, -, -, -, -, hparams, -⟩ := commandsKeepHostRegisters i s t hi
    exact hparams

/-- Settles O51: a reset carries the capacity over, and no word and no host access touches it. -/
theorem capacityIsFixed : Obligations.CapacityIsFixed := by
  intro s t h
  rcases step_engine_cases h with ⟨rest, -, rfl⟩ | ⟨-, hparams⟩ | ⟨w, u, ⟨-, hparams⟩, hw⟩
  · rfl
  · exact hparams
  · exact (runWord_params hw).trans hparams

/-! ### What only a reset undoes (R241) -/

/-- A seeded cipher stays seeded when one is replaced, if the replacement of a seeded cipher is seeded. -/
theorem setCipher_keeps_seeded {s : State} {k k' : CipherId} {x : Cipher} (hk : (s.cipher k).seeded = true)
    (hx : (s.cipher k').seeded = true → x.seeded = true) : ((s.setCipher k' x).cipher k).seeded = true := by
  by_cases he : k = k'
  · subst he; simpa using hx hk
  · rwa [setCipher_cipher_other s x he]

/-- A command's effect leaves the ciphers alone, or seeds or advances one; neither clears `SEEDED`. -/
theorem effectOf_keeps_seeded {s : State} {k : CipherId} (hk : (s.cipher k).seeded = true) (i : Instr) :
    ((effectOf s i).cipher k).seeded = true := by
  have hadvance (k' : CipherId) : ((s.setCipher k' (s.cipher k').advance).cipher k).seeded = true :=
    setCipher_keeps_seeded hk fun h => (advance_seeded _).trans h
  cases i
  case cseed k' => exact setCipher_keeps_seeded hk fun _ => seed_seeded ..
  case cnext k' | cdec k' | cenc k' => exact hadvance k'
  case wr => rw [effectOf_wr]; simpa using hk
  case wbits => rw [effectOf_wbits]; simpa using hk
  case bwend => rw [effectOf_bwend]; simpa using hk
  all_goals cases k <;> exact hk

/-- An error raised leaves both ciphers, and an effect keeps `SEEDED`. -/
theorem exec_keeps_seeded {i : Instr} {s t : State} {k : CipherId} (hk : (s.cipher k).seeded = true)
    (h : exec i s = .next t) : (t.cipher k).seeded = true := by
  rcases exec_next_cases h with ⟨-, rfl⟩ | ⟨-, e, -, rfl⟩ | ⟨-, -, -, rfl⟩
  · rwa [raise_cipher]
  · rwa [raise_cipher]
  · rw [complete_cipher]; exact effectOf_keeps_seeded hk i

theorem runWord_keeps_seeded {w : Word} {s t : State} {k : CipherId} (hk : (s.cipher k).seeded = true)
    (h : runWord w s = .next t) : (t.cipher k).seeded = true := by
  rcases runWord_cases h with ⟨-, rfl⟩ | ⟨-, rfl⟩ | ⟨i, -, hi⟩
  · rwa [raise_cipher]
  · rwa [raise_cipher]
  · exact exec_keeps_seeded hk hi

/-- Once `SEEDED[k] = 1`, a step that is no reset keeps it. -/
theorem step_keeps_seeded {s t : State} {k : CipherId} (hk : (s.cipher k).seeded = true)
    (hrst : ∀ rest, s.host ≠ .rst :: rest) (h : step s = .next t) : (t.cipher k).seeded = true := by
  rcases step_engine_cases h with ⟨rest, hh, -⟩ | ⟨hciphers, -⟩ | ⟨w, u, ⟨hciphers, -⟩, hw⟩
  · exact absurd hh (hrst rest)
  · rwa [hciphers]
  · exact runWord_keeps_seeded (by rwa [hciphers]) hw

/-- `CSEED` of a seeded instance meets the lock, or its own check raises `CipherReseed` (R175, R217). -/
theorem exec_cseed_of_seeded {s t : State} {k : CipherId} (hk : (s.cipher k).seeded = true)
    (h : exec (.cseed k) s = .next t) : ∃ e, e ≠ .ok ∧ t = s.raise e (encode (.cseed k)) := by
  rcases exec_next_cases h with ⟨-, ht⟩ | ⟨-, e, he, ht⟩ | ⟨-, hpass, -, -⟩
  · exact ⟨.fatalLock, by decide, ht⟩
  · exact ⟨e, firstError_checksFor_ne_ok he, ht⟩
  · simp [checksFor, hk] at hpass

/-- Settles O50: `step_keeps_lock` and `step_keeps_seeded` for the steps that are no reset, a raised error for `CSEED`
of a seeded instance, and the values of the state a reset event leaves. -/
theorem onlyResetUnlocks : Obligations.OnlyResetUnlocks := by
  refine ⟨fun s t hrst h => ?locked, fun s t k hk h => ?reseed, fun s t rest hh h => ?reset⟩
  case locked => exact ⟨fun hf => step_keeps_lock hf hrst h, fun k hk => step_keeps_seeded hk hrst h⟩
  case reseed =>
    obtain ⟨e, he, rfl⟩ := exec_cseed_of_seeded hk h
    exact ⟨raise_cipher .., he⟩
  case reset =>
    rw [step_rst hh] at h
    cases h
    exact ⟨rfl, fun k => by cases k <;> rfl⟩

end Sys2Proof.Machine
